-- ==== Sys2Proof/Word.lean ====
section
/-! DEFINITION. The sizes of the machine (00_scope.md R8), and the types made of them: what the spec treats as bits (R9, R10;
30_encoding.md R72) and the arrays of a fixed number of like things. -/

namespace Sys2Proof

/-- The sizes among the parameters of 00_scope.md R8, each a field. -/
structure Sizes where
  /-- `NUM_REGS`. -/
  numRegs : Nat
  /-- The width of a general register, in bits. -/
  regWidth : Nat
  /-- PC width. -/
  pcWidth : Nat
  /-- The width of I, the index register. -/
  indexWidth : Nat
  /-- Timer width, of DT and of ST. -/
  timerWidth : Nat
  /-- The entries of the return stack array, S[0..14] (10_state.md R27): the greatest `STACK_DEPTH`. -/
  stackEntries : Nat
  /-- The width of a return address. -/
  returnWidth : Nat
  /-- `FB_BYTES`. -/
  fbBytes : Nat
  /-- The columns of the framebuffer, in pixels. -/
  fbColumns : Nat
  /-- The rows of the framebuffer, in pixels. -/
  fbRows : Nat
  /-- `NUM_KEYS`. -/
  numKeys : Nat
  /-- The width of an instruction word. -/
  instrWidth : Nat
deriving DecidableEq, Repr

/-- The sizes this hardware takes (00_scope.md R8). Every type below is made of them, so that this is the one place where they
are set. `reduceProj% (delta% Sizes.hardware).f` is the number that stands here for the field `f`, so that each type and
modulus has a plain numeral in it. R8 gives each one value, the source's; the formulas of the rules have it built in (a
register number is a 4-bit field, 30_encoding.md R72, R75; a key is 0x0 to 0xF, 45_keys_timers.md R210), see log 2. -/
def Sizes.hardware : Sizes where
  numRegs := 16
  regWidth := 8
  pcWidth := 16
  indexWidth := 16
  timerWidth := 8
  stackEntries := 15
  returnWidth := 16
  fbBytes := 256
  fbColumns := 64
  fbRows := 32
  numKeys := 16
  instrWidth := 16

/-- A byte, as wide as a general register: 8 bits, unsigned (00_scope.md R8, R9). -/
abbrev Byte := BitVec (reduceProj% (delta% Sizes.hardware).regWidth)

/-- A 16-bit word: an opcode (00_scope.md R8, R9). -/
abbrev Word := BitVec (reduceProj% (delta% Sizes.hardware).instrWidth)

/-- What the program counter holds (10_state.md R25). -/
abbrev PcWord := BitVec (reduceProj% (delta% Sizes.hardware).pcWidth)

/-- What the index register holds (10_state.md R24). -/
abbrev IndexWord := BitVec (reduceProj% (delta% Sizes.hardware).indexWidth)

/-- What a timer holds (10_state.md R29, R30). -/
abbrev TimerByte := BitVec (reduceProj% (delta% Sizes.hardware).timerWidth)

/-- A return address (10_state.md R27). -/
abbrev ReturnWord := BitVec (reduceProj% (delta% Sizes.hardware).returnWidth)

/-- The 12-bit address field `nnn` (30_encoding.md R72, R74). -/
abbrev Addr := BitVec 12

/-- A 4-bit field: one nibble of an opcode, the height `n` of DRW (30_encoding.md R72, R74). -/
abbrev Nibble := BitVec 4

/-- The number of a general register, V0 to VF (10_state.md R21). -/
abbrev RegIdx := Fin (reduceProj% (delta% Sizes.hardware).numRegs)

/-- The number of a logical key, 0x0 to 0xF (00_scope.md R15, "Logical key"). -/
abbrev KeyIdx := Fin (reduceProj% (delta% Sizes.hardware).numKeys)

/-- The general registers (10_state.md R21). -/
abbrev RegFile := Vector Byte (reduceProj% (delta% Sizes.hardware).numRegs)

/-- The return stack, S[0..14] (10_state.md R27). -/
abbrev ReturnStack := Vector ReturnWord (reduceProj% (delta% Sizes.hardware).stackEntries)

/-- A number of occupied stack entries, 0 to 15 (10_state.md R28). -/
abbrev StackCount := Fin (Nat.succ (reduceProj% (delta% Sizes.hardware).stackEntries))

/-- The framebuffer: bytes of 8 pixels (10_state.md R31). -/
abbrev FrameBuffer := Vector Byte (reduceProj% (delta% Sizes.hardware).fbBytes)

end Sys2Proof
end

