-- ==== Sys2Proof/Config.lean ====
section
/-! DEFINITION. What is fixed for one machine (the parameters of 00_scope.md R8) and the free values: the inputs of a
tick that nothing in the spec or the host's supplied list determines. -/

namespace Sys2Proof

/-- `SYS_POLICY` (00_scope.md R8; 30_encoding.md R79): what a family 0 word other than 0x00E0 and 0x00EE is. -/
inductive SysPolicy where
  | invalid
  | nop
deriving DecidableEq, Repr, Inhabited

/-- `DECODE_59_POLICY` (00_scope.md R8; 30_encoding.md R83): what 0x5xyN and 0x9xyN with N other than 0 are. -/
inductive Decode59Policy where
  | strict
  | ignoreLowNibble
deriving DecidableEq, Repr, Inhabited

/-- `VF_DEST_POLICY` (00_scope.md R8; 42_alu.md R140): a flag-writing ALU instruction whose destination is VF. -/
inductive VfDestPolicy where
  | lastWriteWins
  | fault
deriving DecidableEq, Repr, Inhabited

/-- The state of one logical key in a tick (10_state.md R33; 60_exceptions.md R247): not held, newly pressed, held on. -/
inductive KeyState where
  | up
  | pressed
  | down
deriving DecidableEq, Repr, Inhabited

/-- The key-state snapshot `keys[0..15]` of a tick (60_exceptions.md R245, R247). -/
abbrev KeyPad := Vector KeyState (reduceProj% (delta% Sizes.hardware).numKeys)

/-- The parameters of the hardware, each a field (00_scope.md R8; 70_reset_and_hazards.md R262): the sizes (`numRegs`, the
widths, `fbBytes`, `numKeys` and the others of `Sizes`) are those the types of State are made of, and the other fields are
carried by State with any value, which is a DESIGN CHOICE (log 2). -/
structure Config extends Sizes where
  /-- The sizes are the ones that every type is made of. -/
  sizesFixed : toSizes = Sizes.hardware
  /-- `MEM_SIZE`: addresses 0 to memSize - 1 are backed. -/
  memSize : Nat
  /-- `PROGRAM_START`: where a program is loaded and where pc starts. -/
  programStart : PcWord
  /-- `FONT_BASE`: the address of the first glyph. -/
  fontBase : Nat
  /-- The glyph size, in bytes. -/
  glyphSize : Nat
  /-- The glyph count. -/
  glyphCount : Nat
  /-- `FONT`: the glyphs right after reset, one after the other from `fontBase`; the first
  `glyphCount` of them are loaded. -/
  font : List Byte
  /-- `STACK_DEPTH`: how many return addresses the stack takes (41_control_flow.md R129). -/
  stackDepth : StackCount
  sysPolicy : SysPolicy
  decode59 : Decode59Policy
  vfDest : VfDestPolicy
deriving DecidableEq, Repr

/-- The digit glyphs of 70_reset_and_hazards.md R262, five bytes each, glyph d at 5d.
PRESUMED: the spec takes the bytes from general knowledge (decision D27; log 13). -/
def Config.standardFont : Vector Byte 80 :=
  (#v[0xF0#8, 0x90#8, 0x90#8, 0x90#8, 0xF0#8] ++ #v[0x20#8, 0x60#8, 0x20#8, 0x20#8, 0x70#8]
    ++ #v[0xF0#8, 0x10#8, 0xF0#8, 0x80#8, 0xF0#8] ++ #v[0xF0#8, 0x10#8, 0xF0#8, 0x10#8, 0xF0#8]
    ++ #v[0x90#8, 0x90#8, 0xF0#8, 0x10#8, 0x10#8] ++ #v[0xF0#8, 0x80#8, 0xF0#8, 0x10#8, 0xF0#8]
    ++ #v[0xF0#8, 0x80#8, 0xF0#8, 0x90#8, 0xF0#8] ++ #v[0xF0#8, 0x10#8, 0x20#8, 0x40#8, 0x40#8]
    ++ #v[0xF0#8, 0x90#8, 0xF0#8, 0x90#8, 0xF0#8] ++ #v[0xF0#8, 0x90#8, 0xF0#8, 0x10#8, 0xF0#8]
    ++ #v[0xF0#8, 0x90#8, 0xF0#8, 0x90#8, 0x90#8] ++ #v[0xE0#8, 0x90#8, 0xE0#8, 0x90#8, 0xE0#8]
    ++ #v[0xF0#8, 0x80#8, 0x80#8, 0x80#8, 0xF0#8] ++ #v[0xE0#8, 0x90#8, 0x90#8, 0x90#8, 0xE0#8]
    ++ #v[0xF0#8, 0x80#8, 0xF0#8, 0x80#8, 0xF0#8] ++ #v[0xF0#8, 0x80#8, 0xF0#8, 0x80#8, 0x80#8] : Vector Byte 80)

/-- The values this hardware takes (00_scope.md R8). The policies are the spec's defaults (decisions D2, D6, D7, D13; log 2). -/
def Config.hardware : Config where
  toSizes := Sizes.hardware
  sizesFixed := rfl
  memSize := 4095
  programStart := 0x200#16
  fontBase := 0x000
  glyphSize := 5
  glyphCount := 16
  font := Config.standardFont.toList
  stackDepth := 15
  sysPolicy := .invalid
  decode59 := .strict
  vfDest := .lastWriteWins

/-- The inputs of one tick (60_exceptions.md R245): the key snapshot (R247), the byte the random source returns if RND
asks (R248), and the draw `KEY_CHOICE` that picks one of several pressed keys (45_keys_timers.md R214). -/
structure TickInput where
  keys : KeyPad
  rand : Byte
  keyChoice : Nat
deriving DecidableEq, Repr

/-- FREE VALUE (log 4): the state of a key in a tick the host has supplied no input for. No body: nothing is known of it. -/
opaque Config.freeKey (tick key : Nat) : KeyState

/-- FREE VALUE (log 4; decision D31): the byte the random source returns in a tick the host has supplied no input for. -/
opaque Config.freeRand (tick : Nat) : Byte

/-- FREE VALUE (log 4, 7; decision D12): the draw among several pressed keys in a tick the host has supplied no input for. -/
opaque Config.freeKeyChoice (tick : Nat) : Nat

/-- The inputs of a tick that the host has supplied nothing for: free values only. -/
def Config.freeInput (tick : Nat) : TickInput where
  keys := Vector.ofFn fun k => Config.freeKey tick k.val
  rand := Config.freeRand tick
  keyChoice := Config.freeKeyChoice tick

end Sys2Proof
end

