-- ==== Sys2Proof/Syntax.lean ====
section
/-! DEFINITION. The instruction set: one constructor per row of spec/opcode_table.json (30_encoding.md R78). -/

namespace Sys2Proof

/-- A decoded instruction with its operands (00_scope.md R15, "Instruction"). `x` and `y` are register numbers, `kk` an
8-bit immediate, `nnn` a 12-bit address, `n` the height of a sprite (30_encoding.md R72 to R75). -/
inductive Instr where
  -- control flow (41_control_flow.md)
  | cls                                    -- 0x00E0 CLS
  | ret                                    -- 0x00EE RET
  | sys (nnn : Addr)                       -- 0x0nnn SYS nnn
  | jp (nnn : Addr)                        -- 0x1nnn JP nnn
  | call (nnn : Addr)                      -- 0x2nnn CALL nnn
  | seImm (x : RegIdx) (kk : Byte)         -- 0x3xkk SE Vx, kk
  | sneImm (x : RegIdx) (kk : Byte)        -- 0x4xkk SNE Vx, kk
  | seReg (x y : RegIdx)                   -- 0x5xy0 SE Vx, Vy
  -- loads and the ALU (42_alu.md)
  | ldImm (x : RegIdx) (kk : Byte)         -- 0x6xkk LD Vx, kk
  | addImm (x : RegIdx) (kk : Byte)        -- 0x7xkk ADD Vx, kk
  | ldReg (x y : RegIdx)                   -- 0x8xy0 LD Vx, Vy
  | orReg (x y : RegIdx)                   -- 0x8xy1 OR Vx, Vy
  | andReg (x y : RegIdx)                  -- 0x8xy2 AND Vx, Vy
  | xorReg (x y : RegIdx)                  -- 0x8xy3 XOR Vx, Vy
  | addReg (x y : RegIdx)                  -- 0x8xy4 ADD Vx, Vy
  | sub (x y : RegIdx)                     -- 0x8xy5 SUB Vx, Vy
  | shr (x y : RegIdx)                     -- 0x8xy6 SHR Vx (, Vy)
  | subn (x y : RegIdx)                    -- 0x8xy7 SUBN Vx, Vy
  | shl (x y : RegIdx)                     -- 0x8xyE SHL Vx (, Vy)
  | sneReg (x y : RegIdx)                  -- 0x9xy0 SNE Vx, Vy
  | ldI (nnn : Addr)                       -- 0xAnnn LD I, nnn
  | jpV0 (nnn : Addr)                      -- 0xBnnn JP V0, nnn
  | rnd (x : RegIdx) (kk : Byte)           -- 0xCxkk RND Vx, kk
  -- display (44_display.md)
  | drw (x y : RegIdx) (n : Nibble)        -- 0xDxyn DRW Vx, Vy, n
  -- keys and timers (45_keys_timers.md), index and memory (43_index_memory.md)
  | skp (x : RegIdx)                       -- 0xEx9E SKP Vx
  | sknp (x : RegIdx)                      -- 0xExA1 SKNP Vx
  | ldVxDt (x : RegIdx)                    -- 0xFx07 LD Vx, DT
  | ldVxK (x : RegIdx)                     -- 0xFx0A LD Vx, K
  | ldDtVx (x : RegIdx)                    -- 0xFx15 LD DT, Vx
  | ldStVx (x : RegIdx)                    -- 0xFx18 LD ST, Vx
  | addI (x : RegIdx)                      -- 0xFx1E ADD I, Vx
  | ldF (x : RegIdx)                       -- 0xFx29 LD F, Vx
  | ldB (x : RegIdx)                       -- 0xFx33 LD B, Vx
  | ldMemVx (x : RegIdx)                   -- 0xFx55 LD [I], Vx
  | ldVxMem (x : RegIdx)                   -- 0xFx65 LD Vx, [I]
deriving DecidableEq, Repr

end Sys2Proof
end

