-- ==== Sys2Proof/Decode.lean ====
section
/-! DEFINITION. The decoder of 30_encoding.md R76, total on every word and every list of bytes and rejecting by name; the
encoder of R78; and the reading of a word as spec/opcode_table.json numbers it. PRESUMED: the opcode values the source does
not give are the standard CHIP-8 ones (decision D38; log 12), and the first byte is the high one (decision D1; log 11). -/

namespace Sys2Proof

/-- Why a word decodes to `Invalid` (30_encoding.md R76, R79 to R83, R85), or a list of bytes holds no whole word. -/
inductive InvalidWord where
  /-- A family 0 word other than 0x00E0 and 0x00EE, under `SYS_POLICY = Invalid` (R79). -/
  | family0
  /-- A family 5 or 9 word with a low nibble other than 0, under `DECODE_59_POLICY = Strict` (R83). -/
  | lowNibble59
  /-- A family 8 word whose low nibble names no operation (R80). -/
  | subOpcode8
  /-- A family 0xE word whose low byte is neither 0x9E nor 0xA1 (R81). -/
  | subOpcodeE
  /-- A family 0xF word whose low byte names no operation (R82). -/
  | subOpcodeF
  /-- Fewer than two bytes: no opcode (R71). -/
  | truncated
deriving DecidableEq, Repr

/-- The field `n3`, which "selects the primary instruction family (16-way switch)" (30_encoding.md R72). -/
def fieldFamily (op : Word) : Nibble := op.extractLsb' 12 4

/-- A register number is a nibble as it stands (30_encoding.md R75). -/
def regOfNibble (b : Nibble) : RegIdx := ⟨b.toNat, b.isLt⟩

/-- The field `x = n2` as a register number (30_encoding.md R72, R75). -/
def fieldX (op : Word) : RegIdx := regOfNibble (op.extractLsb' 8 4)

/-- The field `y = n1` as a register number (30_encoding.md R72, R75). -/
def fieldY (op : Word) : RegIdx := regOfNibble (op.extractLsb' 4 4)

/-- The field `n = n0` (30_encoding.md R72). -/
def fieldN (op : Word) : Nibble := op.extractLsb' 0 4

/-- The field `kk = op[7:0]` (30_encoding.md R72). -/
def fieldKK (op : Word) : Byte := op.extractLsb' 0 8

/-- The field `nnn = op[11:0]` (30_encoding.md R72). -/
def fieldNNN (op : Word) : Addr := op.extractLsb' 0 12

/-- Family 0 (30_encoding.md R79): exactly two words, and SYS under its policy. -/
def decodeFamily0 (c : Config) (nnn : Addr) : Except InvalidWord Instr :=
  if nnn = 0x0E0#12 then .ok .cls
  else if nnn = 0x0EE#12 then .ok .ret
  else match c.sysPolicy with
    | .nop => .ok (.sys nnn)
    | .invalid => .error .family0

/-- Families 5 and 9 (30_encoding.md R83): `i` when the low nibble is 0 or is ignored by policy. -/
def decodeFamily59 (c : Config) (n : Nibble) (i : Instr) : Except InvalidWord Instr :=
  if n = 0x0#4 then .ok i
  else match c.decode59 with
    | .ignoreLowNibble => .ok i
    | .strict => .error .lowNibble59

/-- Family 8 (30_encoding.md R76, R80): the low nibble is the sub-opcode. -/
def decodeFamily8 (x y : RegIdx) (n : Nibble) : Except InvalidWord Instr :=
  match n.toNat with
  | 0x0 => .ok (.ldReg x y)
  | 0x1 => .ok (.orReg x y)
  | 0x2 => .ok (.andReg x y)
  | 0x3 => .ok (.xorReg x y)
  | 0x4 => .ok (.addReg x y)
  | 0x5 => .ok (.sub x y)
  | 0x6 => .ok (.shr x y)
  | 0x7 => .ok (.subn x y)
  | 0xE => .ok (.shl x y)
  | _ => .error .subOpcode8

/-- Family 0xE (30_encoding.md R76, R81): the low byte is the sub-opcode. -/
def decodeFamilyE (x : RegIdx) (kk : Byte) : Except InvalidWord Instr :=
  match kk.toNat with
  | 0x9E => .ok (.skp x)
  | 0xA1 => .ok (.sknp x)
  | _ => .error .subOpcodeE

/-- Family 0xF (30_encoding.md R76, R82): the low byte is the sub-opcode. -/
def decodeFamilyF (x : RegIdx) (kk : Byte) : Except InvalidWord Instr :=
  match kk.toNat with
  | 0x07 => .ok (.ldVxDt x)
  | 0x0A => .ok (.ldVxK x)
  | 0x15 => .ok (.ldDtVx x)
  | 0x18 => .ok (.ldStVx x)
  | 0x1E => .ok (.addI x)
  | 0x29 => .ok (.ldF x)
  | 0x33 => .ok (.ldB x)
  | 0x55 => .ok (.ldMemVx x)
  | 0x65 => .ok (.ldVxMem x)
  | _ => .error .subOpcodeF

/-- `decode` of 30_encoding.md R76, exact: pure and total (R77), it reads the parameters and the word alone. The last arm
is family 0xF: a nibble has no other value left. -/
def decode (c : Config) (op : Word) : Except InvalidWord Instr :=
  match (fieldFamily op).toNat with
  | 0x0 => decodeFamily0 c (fieldNNN op)
  | 0x1 => .ok (.jp (fieldNNN op))
  | 0x2 => .ok (.call (fieldNNN op))
  | 0x3 => .ok (.seImm (fieldX op) (fieldKK op))
  | 0x4 => .ok (.sneImm (fieldX op) (fieldKK op))
  | 0x5 => decodeFamily59 c (fieldN op) (.seReg (fieldX op) (fieldY op))
  | 0x6 => .ok (.ldImm (fieldX op) (fieldKK op))
  | 0x7 => .ok (.addImm (fieldX op) (fieldKK op))
  | 0x8 => decodeFamily8 (fieldX op) (fieldY op) (fieldN op)
  | 0x9 => decodeFamily59 c (fieldN op) (.sneReg (fieldX op) (fieldY op))
  | 0xA => .ok (.ldI (fieldNNN op))
  | 0xB => .ok (.jpV0 (fieldNNN op))
  | 0xC => .ok (.rnd (fieldX op) (fieldKK op))
  | 0xD => .ok (.drw (fieldX op) (fieldY op) (fieldN op))
  | 0xE => decodeFamilyE (fieldX op) (fieldKK op)
  | _ => decodeFamilyF (fieldX op) (fieldKK op)

/-- Two bytes as an opcode: the byte at the lower address is the high byte (20_memory.md R53; PRESUMED, decision D1, log 11). -/
def wordOfBytes (first second : Byte) : Word := first ++ second

/-- The bytes of an opcode in memory order (20_memory.md R53; PRESUMED, decision D1, log 11). -/
def bytesOfWord (op : Word) : Byte × Byte := (op.extractLsb' 8 8, op.extractLsb' 0 8)

/-- Decode the first instruction of a list of bytes, and give the rest: every instruction is two bytes (30_encoding.md R71). -/
def decodeBytes (c : Config) : List Byte → Except InvalidWord (Instr × List Byte)
  | first :: second :: rest =>
    match decode c (wordOfBytes first second) with
    | .ok i => .ok (i, rest)
    | .error e => .error e
  | _ => .error .truncated

/-- The word of an address-format instruction (30_encoding.md R73, `NNN`). -/
def wordNNN (family : Nibble) (nnn : Addr) : Word := family ++ nnn

/-- The nibble that names a register (30_encoding.md R75). -/
def nibbleOfReg (x : RegIdx) : Nibble := BitVec.ofFin x

/-- The word of a register-and-byte instruction: `XKK`, and `XSS` with its sub-opcode byte (30_encoding.md R73). -/
def wordXKK (family : Nibble) (x : RegIdx) (kk : Byte) : Word := family ++ (nibbleOfReg x ++ kk)

/-- The word of a two-register instruction with a low nibble: `XY`, `XYS`, `XYN` (30_encoding.md R73). -/
def wordXYN (family : Nibble) (x y : RegIdx) (n : Nibble) : Word :=
  family ++ (nibbleOfReg x ++ (nibbleOfReg y ++ n))

/-- The word of an instruction (30_encoding.md R78). SE Vx,Vy and SNE Vx,Vy get low nibble 0, the one that both values of
`DECODE_59_POLICY` accept (R83). -/
def encode : Instr → Word
  | .cls => 0x00E0#16
  | .ret => 0x00EE#16
  | .sys nnn => wordNNN 0x0#4 nnn
  | .jp nnn => wordNNN 0x1#4 nnn
  | .call nnn => wordNNN 0x2#4 nnn
  | .seImm x kk => wordXKK 0x3#4 x kk
  | .sneImm x kk => wordXKK 0x4#4 x kk
  | .seReg x y => wordXYN 0x5#4 x y 0x0#4
  | .ldImm x kk => wordXKK 0x6#4 x kk
  | .addImm x kk => wordXKK 0x7#4 x kk
  | .ldReg x y => wordXYN 0x8#4 x y 0x0#4
  | .orReg x y => wordXYN 0x8#4 x y 0x1#4
  | .andReg x y => wordXYN 0x8#4 x y 0x2#4
  | .xorReg x y => wordXYN 0x8#4 x y 0x3#4
  | .addReg x y => wordXYN 0x8#4 x y 0x4#4
  | .sub x y => wordXYN 0x8#4 x y 0x5#4
  | .shr x y => wordXYN 0x8#4 x y 0x6#4
  | .subn x y => wordXYN 0x8#4 x y 0x7#4
  | .shl x y => wordXYN 0x8#4 x y 0xE#4
  | .sneReg x y => wordXYN 0x9#4 x y 0x0#4
  | .ldI nnn => wordNNN 0xA#4 nnn
  | .jpV0 nnn => wordNNN 0xB#4 nnn
  | .rnd x kk => wordXKK 0xC#4 x kk
  | .drw x y n => wordXYN 0xD#4 x y n
  | .skp x => wordXKK 0xE#4 x 0x9E#8
  | .sknp x => wordXKK 0xE#4 x 0xA1#8
  | .ldVxDt x => wordXKK 0xF#4 x 0x07#8
  | .ldVxK x => wordXKK 0xF#4 x 0x0A#8
  | .ldDtVx x => wordXKK 0xF#4 x 0x15#8
  | .ldStVx x => wordXKK 0xF#4 x 0x18#8
  | .addI x => wordXKK 0xF#4 x 0x1E#8
  | .ldF x => wordXKK 0xF#4 x 0x29#8
  | .ldB x => wordXKK 0xF#4 x 0x33#8
  | .ldMemVx x => wordXKK 0xF#4 x 0x55#8
  | .ldVxMem x => wordXKK 0xF#4 x 0x65#8

/-- The bytes of an instruction in memory order (30_encoding.md R71). -/
def encodeBytes (i : Instr) : List Byte := [(bytesOfWord (encode i)).1, (bytesOfWord (encode i)).2]

/-- A word as spec/opcode_table.json numbers its bits, `w` of at most `nbits` bits: the one opcode word of the instruction
(the table's bit 0 is the opcode's bit 0; every row has 16 bits; bits above `nbits` are 0). -/
def tableWord (nbits w : Nat) : Word := BitVec.ofNat 16 (w % 2 ^ nbits)

/-- The instruction the decoder of this hardware (00_scope.md R8) reads from that word, laid out as its two bytes in memory
order. Under `SYS_POLICY = Invalid`, the value R8 gives, the words of the table's SYS row decode to Invalid (30_encoding.md
R79), as the row's own note says; so the answer for them is `none`. -/
def decodeTableWord (nbits w : Nat) : Option Instr :=
  match decodeBytes Config.hardware [(bytesOfWord (tableWord nbits w)).1, (bytesOfWord (tableWord nbits w)).2] with
  | .ok (i, _) => some i
  | .error _ => none

end Sys2Proof
end

