-- ==== Sys2Proof/Machine/State.lean ====
section
/-! DEFINITION. The machine's state as plain data (10_state.md R20), its faults, and the state after reset. -/

namespace Sys2Proof.Machine

/-- The fault kinds of 60_exceptions.md R230, each with the value its record holds besides the address and the opcode. -/
inductive FaultKind where
  /-- Code 1: the decoded word is `Invalid` (R231). -/
  | invalidInstruction
  /-- Code 2: an access at an address that is not backed; the lowest such address of the access (R232). -/
  | memoryOutOfRange (address : Nat)
  /-- Code 3: CALL with a full stack; SP (R233). -/
  | stackOverflow (sp : Nat)
  /-- Code 4: RET with an empty stack (R234). -/
  | stackUnderflow
  /-- Code 5: a key test whose register value names no logical key; that value (R235). -/
  | invalidKey (value : Byte)
  /-- Code 6: VF as destination of a flag-writing ALU instruction under `VF_DEST_POLICY = Fault`; x (R236). -/
  | undefinedResult (x : RegIdx)
  /-- Code 7: a ROM too large for memory, before any tick; the ROM length (R237). -/
  | loadError (romLength : Nat)
deriving DecidableEq, Repr

/-- The record of a fault that ended a tick (40_execution_cycle.md R108; 60_exceptions.md R230): the kind with its extra
value, the address of the faulting instruction, and the opcode when it was fetched. -/
structure FaultRecord where
  kind : FaultKind
  address : Word
  opcode : Option Word
deriving DecidableEq, Repr

/-- `run` (10_state.md R34). -/
inductive RunState where
  | running
  | faulted (record : FaultRecord)
deriving DecidableEq, Repr

/-- The status output of a tick (60_exceptions.md R249; 40_execution_cycle.md R106, R108). -/
inductive Status where
  | ok
  | framebufferChanged
  | fault (record : FaultRecord)
deriving DecidableEq, Repr

/-- Memory as a list of (address, byte) cells: addresses strictly rising, no cell equal to what an unlisted address reads
as (`Memory.resetByte`, Machine/Ops.lean). -/
abbrev Memory := List Host.Cell

/-- The state (10_state.md R20), the outputs and inputs of a tick (60_exceptions.md R245), and the parameters (00_scope.md
R8). `inputs` and `ticks` are the model's own (log 4). -/
structure State where
  /-- V0 to VF (10_state.md R21, R22). -/
  v : RegFile
  /-- I, the index register (10_state.md R24). -/
  i : IndexWord
  /-- The program counter (10_state.md R25). -/
  pc : PcWord
  /-- S[0..14], the return stack (10_state.md R27). -/
  stack : ReturnStack
  /-- SP, the number of occupied entries, 0 to STACK_DEPTH (10_state.md R28; decision D5, log 21). -/
  sp : StackCount
  /-- DT, the delay timer (10_state.md R29). -/
  dt : TimerByte
  /-- ST, the sound timer (10_state.md R30). -/
  st : TimerByte
  /-- FB (10_state.md R31). -/
  fb : FrameBuffer
  /-- Mem (10_state.md R32): the cells that differ from the reset contents. -/
  mem : Memory
  /-- Running, or Faulted with its record (10_state.md R34). -/
  run : RunState
  /-- The status the last tick returned, none before the first tick (60_exceptions.md R249; log 5). -/
  status : Option Status
  /-- The inputs of the current tick, constant within it (60_exceptions.md R247, R248). -/
  input : TickInput
  /-- The inputs the host has supplied for the ticks to come, the next tick's first (log 4). -/
  inputs : List TickInput
  /-- The number of ticks begun: the argument of the free values (log 4). -/
  ticks : Nat
  /-- The parameters of the hardware, which no step changes (log 2). -/
  cfg : Config
deriving DecidableEq, Repr

/-- Why a step answers no state. -/
inductive Fault where
  /-- No tick is taken from `Faulted` (40_execution_cycle.md R112; 93_implementation_defined.md row 13, "stuck"): raised by
  `step` alone, with the record of the fault that stopped the engine. SAFE: the spec gives no behaviour after it. (The fault
  itself is a next state with `run` faulted: log 1.) -/
  | stopped (record : FaultRecord)
deriving DecidableEq, Repr

/-- Why an instruction has no meaning here. -/
inductive Refusal where
  /-- Raised by `exec`'s arm of an instruction that has no meaning yet. SAFE: nothing is claimed of it. No arm is left so. -/
  | notModelled (mnemonic : String)
deriving DecidableEq, Repr

/-- The engine as constructed with the parameters `c` and a program of no bytes (10_state.md R37; 70_reset_and_hazards.md
R261, R264). The zeros are the spec's decision D9 (log 3); `status`, `input`, `inputs`, `ticks` are DESIGN CHOICE (log 5). -/
def State.construct (c : Config) : State where
  v := Vector.replicate _ 0x00#8
  i := 0x0000#16
  pc := c.programStart
  stack := Vector.replicate _ 0x0000#16
  sp := 0
  dt := 0x00#8
  st := 0x00#8
  fb := Vector.replicate _ 0x00#8
  mem := []
  run := .running
  status := none
  input := { keys := Vector.replicate _ .up, rand := 0x00#8, keyChoice := 0 }
  inputs := []
  ticks := 0
  cfg := c

/-- The machine right after reset (10_state.md R37), with the parameters this hardware takes (00_scope.md R8). -/
def State.reset : State := State.construct Config.hardware

end Sys2Proof.Machine
end

