-- ==== Sys2Proof/Machine/Ops.lean ====
section
/-! DEFINITION. The named operations over memory and registers, the timer phase, the fetch, the end of a tick, and the one
operation that takes a fault. There is no return from a fault (60_exceptions.md R241), so none stands beside it. -/

namespace Sys2Proof.Machine

/-! ### Memory (20_memory.md) -/

/-- The contents of memory at reset, with no program: the glyphs from FONT_BASE on, 0x00 elsewhere (10_state.md R37;
20_memory.md R51; decision D9, log 3). It is what an address that `State.mem` does not list reads as. -/
def Memory.resetByte (c : Config) (a : Nat) : Byte :=
  if c.fontBase ≤ a ∧ a < c.fontBase + c.glyphCount * c.glyphSize then (c.font[a - c.fontBase]?).getD 0x00#8 else 0x00#8

/-- One byte of memory: plain storage, a read changes nothing (20_memory.md R58). -/
def Memory.read (c : Config) : Memory → Nat → Byte
  | [], a => Memory.resetByte c a
  | (b, w) :: m, a => if a = b then w else Memory.read c m a

/-- List `v` at `a`, in its place among rising addresses. -/
def Memory.put : Memory → Nat → Byte → Memory
  | [], a, v => [(a, v)]
  | (b, w) :: m, a, v =>
    if a < b then (a, v) :: (b, w) :: m
    else if a = b then (a, v) :: m
    else (b, w) :: Memory.put m a v

/-- Take the cell at `a` off the list. -/
def Memory.unlist : Memory → Nat → Memory
  | [], _ => []
  | (b, w) :: m, a => if a = b then m else (b, w) :: Memory.unlist m a

/-- Store one byte, keeping the canonical form: the value an unlisted address reads as is not listed. The font is writable
like any other byte (20_memory.md R52). -/
def Memory.write (c : Config) (m : Memory) (a : Nat) (v : Byte) : Memory :=
  if v = Memory.resetByte c a then Memory.unlist m a else Memory.put m a v

/-- Every cell from address `low` on is listed in rising order, backed, and different from the reset contents. -/
def Memory.wfFrom (c : Config) : Nat → Memory → Bool
  | _, [] => true
  | low, (a, v) :: m =>
    decide (low ≤ a) && decide (a < c.memSize) && decide (v ≠ Memory.resetByte c a) && Memory.wfFrom c (a + 1) m

/-- The canonical form of memory: addresses strictly rising and below MEM_SIZE, no cell equal to the reset contents. -/
def Memory.wf (c : Config) (m : Memory) : Bool := Memory.wfFrom c 0 m

/-- Store bytes at consecutive addresses, the first at `a` (20_memory.md R54: one byte at a time). -/
def Memory.writeBytes (c : Config) (m : Memory) (a : Nat) : List Byte → Memory
  | [] => m
  | v :: vs => Memory.writeBytes c (Memory.write c m a v) (a + 1) vs

/-- The range check of 20_memory.md R55 over the `n` bytes from `base`, in rising order: the lowest address of the access
that is not backed. Addresses are natural numbers and do not wrap (R56; decision D36, log 22). -/
def firstUnbacked (c : Config) (base : Nat) : Nat → Option Nat
  | 0 => none
  | n + 1 => if c.memSize ≤ base then some base else firstUnbacked c (base + 1) n

/-- `MemRead(a, 1)` in the state's memory (00_scope.md R12), for an address the range check has passed. -/
def State.byteAt (s : State) (a : Nat) : Byte := Memory.read s.cfg s.mem a

/-- The `n` bytes from `base`, lowest address first. -/
def State.bytesAt (s : State) (base : Nat) : Nat → List Byte
  | 0 => []
  | n + 1 => s.byteAt base :: State.bytesAt s (base + 1) n

/-- The opcode at address `a`: the byte at the lower address is the high byte (20_memory.md R53; PRESUMED, log 11). -/
def State.wordAt (s : State) (a : Nat) : Word := wordOfBytes (s.byteAt a) (s.byteAt (a + 1))

/-! ### Updates of one piece of state -/

/-- `V[x] <- b` (00_scope.md R12). -/
def State.setReg (s : State) (x : RegIdx) (b : Byte) : State := { s with v := s.v.set x.val b x.isLt }

/-- All of V0 to VF at once (the bulk load). -/
def State.setRegs (s : State) (v : RegFile) : State := { s with v := v }

/-- `I <- w` (10_state.md R24). -/
def State.setI (s : State) (w : Word) : State := { s with i := w }

/-- `pc <- w` (00_scope.md R12). -/
def State.setPc (s : State) (w : Word) : State := { s with pc := w }

/-- `DT <- b` (10_state.md R29). -/
def State.setDt (s : State) (b : Byte) : State := { s with dt := b }

/-- `ST <- b` (10_state.md R30). -/
def State.setSt (s : State) (b : Byte) : State := { s with st := b }

/-- `FB` replaced (10_state.md R31). -/
def State.setFb (s : State) (fb : FrameBuffer) : State := { s with fb := fb }

/-- `MemWrite` of consecutive bytes from `base` (00_scope.md R12), for addresses the range check has passed. -/
def State.writeBytes (s : State) (base : Nat) (bytes : List Byte) : State :=
  { s with mem := Memory.writeBytes s.cfg s.mem base bytes }

/-- The status output of the tick (60_exceptions.md R249). -/
def State.setStatus (s : State) (r : Status) : State := { s with status := some r }

/-! ### The return stack (41_control_flow.md R129, R130) -/

/-- The push primitive: `S[SP] <- w`, then `SP <- SP + 1`; nothing when the stack is full, SP being STACK_DEPTH (R129). -/
def push (w : Word) (s : State) : Option State :=
  if h : s.sp.val < s.cfg.stackDepth.val then
    some { s with
      stack := s.stack.set s.sp.val w (Nat.lt_of_lt_of_le h (Nat.le_of_lt_succ s.cfg.stackDepth.isLt))
      sp := ⟨s.sp.val + 1, Nat.lt_of_le_of_lt h s.cfg.stackDepth.isLt⟩ }
  else none

/-- The pop primitive: `SP <- SP - 1`, then the entry there, which keeps its value; nothing when the stack is empty (R130;
10_state.md R36). -/
def pop (s : State) : Option (Word × State) :=
  if h : 0 < s.sp.val then
    some (s.stack[s.sp.val - 1]'(by omega), { s with sp := ⟨s.sp.val - 1, by omega⟩ })
  else none

/-! ### The tick (40_execution_cycle.md) -/

/-- "decremented once per execution tick when non-zero; they never go negative" (R101). -/
def countDown (t : Byte) : Byte := if t = 0x00#8 then t else t - 1#8

/-- The timer phase, first in every tick (R101). -/
def timerPhase (s : State) : State := { s with dt := countDown s.dt, st := countDown s.st }

/-- The inputs of the tick: what the host has supplied for it, or free values (60_exceptions.md R247, R248; log 4). -/
def State.nextInput (s : State) : TickInput :=
  match s.inputs with
  | [] => Config.freeInput s.ticks
  | t :: _ => t

/-- The snapshot of the inputs is taken at the start of the tick and stays constant within it (60_exceptions.md R247). -/
def takeInput (s : State) : State :=
  { s with input := s.nextInput, inputs := s.inputs.tail, ticks := s.ticks + 1 }

/-- What every tick does before it fetches: it takes its inputs and runs the timer phase (40_execution_cycle.md R100, R101). -/
def beginTick (s : State) : State := timerPhase (takeInput s)

/-- The fetch phase (R102): the word at pc, or the address of the first of its two bytes that is not backed. -/
def fetch (s : State) : Except Nat Word :=
  match firstUnbacked s.cfg s.pc.toNat 2 with
  | some a => .error a
  | none => .ok (s.wordAt s.pc.toNat)

/-- The pre-increment `pc <- trunc16(a + 2)` (R104; decision D18, log 22). -/
def preIncrement (s : State) : State := s.setPc (s.pc + 2#16)

/-- Skip: a further +2 (R107). -/
def skip (s : State) : State := s.setPc (s.pc + 2#16)

/-- Skip when the condition holds (R107). -/
def skipIf (cond : Bool) (s : State) : State := if cond then skip s else s

/-- The end of a tick that does not fault: its status (R106). -/
def finish (r : Status) (s : State) : Host.Outcome State Fault Refusal := .next (s.setStatus r)

/-- TAKING A FAULT, the one operation (40_execution_cycle.md R108; 60_exceptions.md R239): pc is the address of the faulting
instruction, run becomes Faulted with the record, the status is the fault. `s` is the state before any write of the
instruction, so nothing else has to be undone; the timer phase stands. -/
def enterFault (kind : FaultKind) (address : Word) (opcode : Option Word) (s : State) : State :=
  { s with
    pc := address
    run := .faulted { kind := kind, address := address, opcode := opcode }
    status := some (.fault { kind := kind, address := address, opcode := opcode }) }

/-- `raise Fault(kind, v)` in the execute phase, where pc is a + 2 (R104, R108). The opcode of the record is the word at a:
nothing of the tick has written memory yet, so it is the word that was fetched (DEDUCED, log 8). -/
def raiseFault (kind : FaultKind) (s : State) : Host.Outcome State Fault Refusal :=
  .next (enterFault kind (s.pc - 2#16) (some (s.wordAt (s.pc - 2#16).toNat)) s)

end Sys2Proof.Machine
end

