-- ==== Sys2Proof/Machine/Operands.lean ====
section
/-! DEFINITION. The operand forms: registers, addresses, the bytes at I, the implicit registers V0 to Vx, key indices and
the key states of the tick (30_encoding.md R74, R75; 20_memory.md R56; 45_keys_timers.md R210). -/

namespace Sys2Proof.Machine

/-- `V[x]` (00_scope.md R12). -/
def State.reg (s : State) (x : RegIdx) : Byte := s.v[x.val]

/-- VF, the flag register, is register 0xF (10_state.md R22). -/
abbrev VF : RegIdx := 0xF

/-- An address field written to pc or I is zero-extended (30_encoding.md R74). -/
def zext16 (nnn : Addr) : Word := nnn.setWidth 16

/-- The target of JP V0, nnn: "nnn + V0", modulo 2^16 and not masked to 12 bits (41_control_flow.md R128; decision D16, log 22). -/
def offsetTarget (nnn : Addr) (s : State) : Word := BitVec.ofNat 16 (nnn.toNat + (s.reg 0).toNat)

/-- The base address of a memory access is I, as a natural number (20_memory.md R56). -/
def State.base (s : State) : Nat := s.i.toNat

/-- The values of V0 to Vx, V0 first: "registers 0..=N inclusive" (30_encoding.md R75; 43_index_memory.md R174). -/
def State.regsTo (s : State) (x : RegIdx) : List Byte := s.v.toList.take (x.val + 1)

/-- The register file with V0 to Vx loaded from the bytes at I, the others as they were (43_index_memory.md R175). -/
def State.loadedRegs (s : State) (x : RegIdx) : RegFile :=
  s.v.mapFinIdx fun k b _ => if k ≤ x.val then s.byteAt (s.base + k) else b

/-- The three decimal digits of a byte, hundreds first (43_index_memory.md R173). -/
def bcdDigits (v : Byte) : List Byte :=
  [BitVec.ofNat 8 (v.toNat / 100), BitVec.ofNat 8 (v.toNat / 10 % 10), BitVec.ofNat 8 (v.toNat % 10)]

/-- The address of the glyph of a value: the value times the glyph size, from the font on, with no mask; on this hardware the
value times 5 (43_index_memory.md R172; 00_scope.md R8; decision D22, log 23). -/
def glyphAddress (c : Config) (v : Byte) : Word := BitVec.ofNat 16 (c.fontBase + v.toNat * c.glyphSize)

/-- `key_of(v)`: only 0x0 to 0xF name a logical key (45_keys_timers.md R210). -/
def keyOf (v : Byte) : Option KeyIdx := if h : v.toNat < reduceProj% (delta% Sizes.hardware).numKeys then some ⟨v.toNat, h⟩ else none

/-- `KeyState(k)` of the tick (60_exceptions.md R247). -/
def State.keyState (s : State) (k : KeyIdx) : KeyState := s.input.keys[k.val]

/-- The logical keys, lowest first. -/
def allKeys : List KeyIdx := List.finRange _

/-- The set P of the keys in state `pressed` (45_keys_timers.md R214), lowest first. -/
def State.pressedKeys (s : State) : List KeyIdx := allKeys.filter fun k => s.keyState k == .pressed

/-- `KEY_CHOICE(P)`: one element of P, picked by the draw of the tick; none when P is empty (45_keys_timers.md R214; decision
D12, log 7). Every element of P is picked by some draw. -/
def State.chosenKey (s : State) : Option KeyIdx := s.pressedKeys[s.input.keyChoice % s.pressedKeys.length]?

/-- `Rand()`: the byte the random source gives in this tick (60_exceptions.md R248). -/
def State.randByte (s : State) : Byte := s.input.rand

end Sys2Proof.Machine
end

