-- ==== Sys2Proof/Machine/Flags.lean ====
section
/-! DEFINITION. The results and flags of the ALU (42_alu.md R140, R141): computed exactly on integers, then narrowed. -/

namespace Sys2Proof.Machine

/-- A flag is the byte 1 or 0 (42_alu.md R141; decision D39). -/
def flagByte (b : Bool) : Byte := if b then 0x01#8 else 0x00#8

/-- The sum modulo 256 (42_alu.md R141). -/
def sumByte (a b : Byte) : Byte := BitVec.ofNat 8 (a.toNat + b.toNat)

/-- "the sum exceeds 255" (42_alu.md R143, R148). -/
def sumFlag (a b : Byte) : Byte := flagByte (decide (255 < a.toNat + b.toNat))

/-- The exact difference, -255 to 255, modulo 256 (42_alu.md R141, R149). -/
def diffByte (minuend subtrahend : Byte) : Byte := BitVec.ofInt 8 ((minuend.toNat : Int) - (subtrahend.toNat : Int))

/-- "the minuend is *strictly greater than* the subtrahend": equal operands give 0 (42_alu.md R141, R149). -/
def diffFlag (minuend subtrahend : Byte) : Byte := flagByte (decide (subtrahend.toNat < minuend.toNat))

/-- One place to the right, zero fill (42_alu.md R150). -/
def shrByte (a : Byte) : Byte := BitVec.ofNat 8 (a.toNat / 2)

/-- The least significant bit before the shift (42_alu.md R150). -/
def shrFlag (a : Byte) : Byte := BitVec.ofNat 8 (a.toNat % 2)

/-- One place to the left, zero fill, the low 8 bits (42_alu.md R152). -/
def shlByte (a : Byte) : Byte := BitVec.ofNat 8 (a.toNat * 2)

/-- Bit 7 before the shift (42_alu.md R152). -/
def shlFlag (a : Byte) : Byte := BitVec.ofNat 8 (a.toNat / 128)

/-- `flag_then_dest(f, r)` (42_alu.md R140): VF is written with the flag, then V[x] with the result, so that the result is
what VF holds when x = 0xF; or, under `VF_DEST_POLICY = Fault`, that case faults and writes nothing. Flag and result come
from the register values before the instruction. -/
def flagThenDest (x : RegIdx) (flag result : Byte) (s : State) : Host.Outcome State Fault Refusal :=
  if x = VF ∧ s.cfg.vfDest = .fault then raiseFault (.undefinedResult x) s
  else finish .ok ((s.setReg VF flag).setReg x result)

end Sys2Proof.Machine
end

