-- ==== Sys2Proof/Machine/Alu.lean ====
section
/-! DEFINITION. Register loads, logic, the ALU and the random byte (42_alu.md). Status Ok or UndefinedResult; no memory. -/

namespace Sys2Proof.Machine

/-- LD Vx, kk (R142). -/
def execLdImm (x : RegIdx) (kk : Byte) (s : State) : Host.Outcome State Fault Refusal := finish .ok (s.setReg x kk)

/-- ADD Vx, kk: it sets VF to the carry (R143; 90_conflicts.md C5). -/
def execAddImm (x : RegIdx) (kk : Byte) (s : State) : Host.Outcome State Fault Refusal :=
  flagThenDest x (sumFlag (s.reg x) kk) (sumByte (s.reg x) kk) s

/-- LD Vx, Vy (R144). -/
def execLdReg (x y : RegIdx) (s : State) : Host.Outcome State Fault Refusal := finish .ok (s.setReg x (s.reg y))

/-- OR Vx, Vy: VF is no flag here (R145; 90_conflicts.md C9; decision D14, log 20). -/
def execOrReg (x y : RegIdx) (s : State) : Host.Outcome State Fault Refusal :=
  finish .ok (s.setReg x (s.reg x ||| s.reg y))

/-- AND Vx, Vy (R146; log 20). -/
def execAndReg (x y : RegIdx) (s : State) : Host.Outcome State Fault Refusal :=
  finish .ok (s.setReg x (s.reg x &&& s.reg y))

/-- XOR Vx, Vy (R147; log 20). -/
def execXorReg (x y : RegIdx) (s : State) : Host.Outcome State Fault Refusal :=
  finish .ok (s.setReg x (s.reg x ^^^ s.reg y))

/-- ADD Vx, Vy (R148). -/
def execAddReg (x y : RegIdx) (s : State) : Host.Outcome State Fault Refusal :=
  flagThenDest x (sumFlag (s.reg x) (s.reg y)) (sumByte (s.reg x) (s.reg y)) s

/-- SUB Vx, Vy: V[x] - V[y] (R149). -/
def execSub (x y : RegIdx) (s : State) : Host.Outcome State Fault Refusal :=
  flagThenDest x (diffFlag (s.reg x) (s.reg y)) (diffByte (s.reg x) (s.reg y)) s

/-- SHR Vx: y is decoded and ignored (R150; 30_encoding.md R86). -/
def execShr (x _y : RegIdx) (s : State) : Host.Outcome State Fault Refusal :=
  flagThenDest x (shrFlag (s.reg x)) (shrByte (s.reg x)) s

/-- SUBN Vx, Vy: V[y] - V[x] (R151). -/
def execSubn (x y : RegIdx) (s : State) : Host.Outcome State Fault Refusal :=
  flagThenDest x (diffFlag (s.reg y) (s.reg x)) (diffByte (s.reg y) (s.reg x)) s

/-- SHL Vx: y is decoded and ignored (R152; 30_encoding.md R86). -/
def execShl (x _y : RegIdx) (s : State) : Host.Outcome State Fault Refusal :=
  flagThenDest x (shlFlag (s.reg x)) (shlByte (s.reg x)) s

/-- RND Vx, kk: the random byte of the tick under the mask (R153). -/
def execRnd (x : RegIdx) (kk : Byte) (s : State) : Host.Outcome State Fault Refusal :=
  finish .ok (s.setReg x (s.randByte &&& kk))

end Sys2Proof.Machine
end

