-- ==== Sys2Proof/Machine/Control.lean ====
section
/-! DEFINITION. System call, jumps, call and return, skips (41_control_flow.md). pc is already a + 2 (40_execution_cycle.md
R104); every instruction here ends with status Ok or a fault. -/

namespace Sys2Proof.Machine

/-- SYS nnn: "a legacy system call (ignored as a no-op)" (R120). -/
def execSys (_nnn : Addr) (s : State) : Host.Outcome State Fault Refusal := finish .ok s

/-- RET: pc is the popped entry, used as it is (R121, R131); an empty stack faults (R130). -/
def execRet (s : State) : Host.Outcome State Fault Refusal :=
  match pop s with
  | none => raiseFault .stackUnderflow s
  | some (target, s') => finish .ok (s'.setPc target)

/-- JP nnn (R122). -/
def execJp (nnn : Addr) (s : State) : Host.Outcome State Fault Refusal := finish .ok (s.setPc (zext16 nnn))

/-- CALL nnn: the address after the instruction is pushed, pc is nnn (R123); a full stack faults (R129). -/
def execCall (nnn : Addr) (s : State) : Host.Outcome State Fault Refusal :=
  match push s.pc s with
  | none => raiseFault (.stackOverflow s.sp.val) s
  | some s' => finish .ok (s'.setPc (zext16 nnn))

/-- SE Vx, kk (R124). -/
def execSeImm (x : RegIdx) (kk : Byte) (s : State) : Host.Outcome State Fault Refusal :=
  finish .ok (skipIf (decide (s.reg x = kk)) s)

/-- SNE Vx, kk (R125). -/
def execSneImm (x : RegIdx) (kk : Byte) (s : State) : Host.Outcome State Fault Refusal :=
  finish .ok (skipIf (decide (s.reg x ≠ kk)) s)

/-- SE Vx, Vy (R126). -/
def execSeReg (x y : RegIdx) (s : State) : Host.Outcome State Fault Refusal :=
  finish .ok (skipIf (decide (s.reg x = s.reg y)) s)

/-- SNE Vx, Vy (R127). -/
def execSneReg (x y : RegIdx) (s : State) : Host.Outcome State Fault Refusal :=
  finish .ok (skipIf (decide (s.reg x ≠ s.reg y)) s)

/-- JP V0, nnn (R128). -/
def execJpV0 (nnn : Addr) (s : State) : Host.Outcome State Fault Refusal := finish .ok (s.setPc (offsetTarget nnn s))

end Sys2Proof.Machine
end

