-- ==== Sys2Proof/Machine/Display.lean ====
section
/-! DEFINITION. The framebuffer raster, clear and draw (44_display.md). The byte formula and the collision rule are the
spec's decisions D19, D20, D43 (log 15). -/

namespace Sys2Proof.Machine

/-- Framebuffer byte b; the index is taken modulo FB_BYTES, 256 (20_memory.md R66). -/
def fbByte (fb : FrameBuffer) (b : Nat) : Byte := fb[b % reduceProj% (delta% Sizes.hardware).fbBytes]'(Nat.mod_lt _ (by decide))

/-- `FB[b] <- FB[b] ^ m` (R192). -/
def fbXor (fb : FrameBuffer) (b : Nat) (m : Byte) : FrameBuffer :=
  fb.set (b % reduceProj% (delta% Sizes.hardware).fbBytes) (fbByte fb b ^^^ m) (Nat.mod_lt _ (by decide))

/-- `b0`, the byte that row r of a sprite at (px, py) starts in (R193). -/
def rowByte (px py : Byte) (r : Nat) : Nat := ((py.toNat + r) * 8 + px.toNat / 8) % reduceProj% (delta% Sizes.hardware).fbBytes

/-- `b1`, the byte that row spills into: the next one, byte 0 after byte 255 (R193). -/
def spillByte (px py : Byte) (r : Nat) : Nat := (rowByte px py r + 1) % reduceProj% (delta% Sizes.hardware).fbBytes

/-- `m0 = row >> s` with `s = px mod 8` (R194). -/
def rowMask (px row : Byte) : Byte := BitVec.ofNat 8 (row.toNat >>> (px.toNat % 8))

/-- `m1 = (row << (8 - s)) mod 256`, 0 when s = 0 (R194). -/
def spillMask (px row : Byte) : Byte := BitVec.ofNat 8 (row.toNat <<< (8 - px.toNat % 8))

/-- XORing `row` in as row r turns off a lit pixel (R195). -/
def rowCollides (px py : Byte) (r : Nat) (row : Byte) (fb : FrameBuffer) : Bool :=
  decide (fbByte fb (rowByte px py r) &&& rowMask px row ≠ 0x00#8)
    || decide (fbByte fb (spillByte px py r) &&& spillMask px row ≠ 0x00#8)

/-- XOR one sprite row into the two bytes it spans (R192). -/
def drawRow (px py : Byte) (r : Nat) (row : Byte) (fb : FrameBuffer) : FrameBuffer :=
  fbXor (fbXor fb (rowByte px py r) (rowMask px row)) (spillByte px py r) (spillMask px row)

/-- The framebuffer after the rows are drawn, the first of them as row r (R192). -/
def drawRows (px py : Byte) : Nat → List Byte → FrameBuffer → FrameBuffer
  | _, [], fb => fb
  | r, row :: rows, fb => drawRows px py (r + 1) rows (drawRow px py r row fb)

/-- Whether some row of the draw turns off a lit pixel (R192, R195). -/
def drawCollides (px py : Byte) : Nat → List Byte → FrameBuffer → Bool
  | _, [], _ => false
  | r, row :: rows, fb =>
    rowCollides px py r row fb || drawCollides px py (r + 1) rows (drawRow px py r row fb)

/-- CLS: every byte 0x00; VF is not written and the status is Ok (R191). -/
def execCls (s : State) : Host.Outcome State Fault Refusal := finish .ok (s.setFb (Vector.replicate _ 0x00#8))

/-- DRW Vx, Vy, n: n sprite rows from I at (V[x], V[y]), both read before VF is written; VF is the collision; the status is
FramebufferChanged, for n = 0 too (R192, R196). -/
def execDrw (x y : RegIdx) (n : Nibble) (s : State) : Host.Outcome State Fault Refusal :=
  match firstUnbacked s.cfg s.base n.toNat with
  | some a => raiseFault (.memoryOutOfRange a) s
  | none =>
    finish .framebufferChanged
      ((s.setFb (drawRows (s.reg x) (s.reg y) 0 (s.bytesAt s.base n.toNat) s.fb)).setReg VF
        (flagByte (drawCollides (s.reg x) (s.reg y) 0 (s.bytesAt s.base n.toNat) s.fb)))

end Sys2Proof.Machine
end

