-- ==== Sys2Proof/Machine/IndexMemory.lean ====
section
/-! DEFINITION. The index register and the instructions that access memory through it (43_index_memory.md). Every access is
checked before any write, at the lowest failing address; I is unchanged by LD B, LD [I] and LD Vx,[I] (R176). -/

namespace Sys2Proof.Machine

/-- LD I, nnn (R170). -/
def execLdI (nnn : Addr) (s : State) : Host.Outcome State Fault Refusal := finish .ok (s.setI (zext16 nnn))

/-- ADD I, Vx: modulo 2^16, VF is no flag here (R171; decision D15, log 20). -/
def execAddI (x : RegIdx) (s : State) : Host.Outcome State Fault Refusal :=
  finish .ok (s.setI (BitVec.ofNat 16 (s.i.toNat + (s.reg x).toNat)))

/-- LD F, Vx (R172). -/
def execLdF (x : RegIdx) (s : State) : Host.Outcome State Fault Refusal :=
  finish .ok (s.setI (glyphAddress s.cfg (s.reg x)))

/-- LD B, Vx: the decimal digits of V[x] at I, I + 1, I + 2 (R173). -/
def execLdB (x : RegIdx) (s : State) : Host.Outcome State Fault Refusal :=
  match firstUnbacked s.cfg s.base 3 with
  | some a => raiseFault (.memoryOutOfRange a) s
  | none => finish .ok (s.writeBytes s.base (bcdDigits (s.reg x)))

/-- LD [I], Vx: V0 to Vx at I and up (R174). -/
def execLdMemVx (x : RegIdx) (s : State) : Host.Outcome State Fault Refusal :=
  match firstUnbacked s.cfg s.base (x.val + 1) with
  | some a => raiseFault (.memoryOutOfRange a) s
  | none => finish .ok (s.writeBytes s.base (s.regsTo x))

/-- LD Vx, [I]: V0 to Vx from I and up (R175). -/
def execLdVxMem (x : RegIdx) (s : State) : Host.Outcome State Fault Refusal :=
  match firstUnbacked s.cfg s.base (x.val + 1) with
  | some a => raiseFault (.memoryOutOfRange a) s
  | none => finish .ok (s.setRegs (s.loadedRegs x))

end Sys2Proof.Machine
end

