-- ==== Sys2Proof/Machine/KeysTimers.lean ====
section
/-! DEFINITION. Key tests, the wait for a key, and the timer registers (45_keys_timers.md). Status Ok or InvalidKey. -/

namespace Sys2Proof.Machine

/-- SKP Vx: skip unless the key is up; `pressed` and `down` both skip (R211); a value that names no key faults (R210). -/
def execSkp (x : RegIdx) (s : State) : Host.Outcome State Fault Refusal :=
  match keyOf (s.reg x) with
  | none => raiseFault (.invalidKey (s.reg x)) s
  | some k => finish .ok (skipIf (decide (s.keyState k ≠ .up)) s)

/-- SKNP Vx: skip when the key is up (R212; decision D11, log 26). -/
def execSknp (x : RegIdx) (s : State) : Host.Outcome State Fault Refusal :=
  match keyOf (s.reg x) with
  | none => raiseFault (.invalidKey (s.reg x)) s
  | some k => finish .ok (skipIf (decide (s.keyState k = .up)) s)

/-- LD Vx, DT: DT as this tick's timer phase left it (R213). -/
def execLdVxDt (x : RegIdx) (s : State) : Host.Outcome State Fault Refusal := finish .ok (s.setReg x s.dt)

/-- LD Vx, K: the index of a pressed key, or pc back to this instruction when no key is pressed (R214). -/
def execLdVxK (x : RegIdx) (s : State) : Host.Outcome State Fault Refusal :=
  finish .ok (match s.chosenKey with
    | some k => s.setReg x (BitVec.ofNat 8 k.val)
    | none => s.setPc (s.pc - 2#16))

/-- LD DT, Vx (R215). -/
def execLdDtVx (x : RegIdx) (s : State) : Host.Outcome State Fault Refusal := finish .ok (s.setDt (s.reg x))

/-- LD ST, Vx (R216). -/
def execLdStVx (x : RegIdx) (s : State) : Host.Outcome State Fault Refusal := finish .ok (s.setSt (s.reg x))

end Sys2Proof.Machine
end

