-- ==== Sys2Proof/Machine/Load.lean ====
section
/-! DEFINITION. Reset as construction from a ROM image (70_reset_and_hazards.md R260 to R267): how a program comes to run. -/

namespace Sys2Proof.Machine

/-- The magic marker "C8P" as its three ASCII bytes (R263; PRESUMED, decision D26, log 27). -/
def romMarker : List Byte := [0x43#8, 0x38#8, 0x50#8]

/-- The program bytes of a ROM: one leading marker is stripped, otherwise the whole buffer loads verbatim (R263). -/
def programBytes (rom : List Byte) : List Byte := if rom.take 3 = romMarker then rom.drop 3 else rom

/-- Construction from a ROM (R261): LoadError when the program, the marker stripped, is longer than memory minus
PROGRAM_START (R265), else the reset state with the program there (R264). The recorded length is the ROM's own (log 10). -/
def constructFromRom (c : Config) (rom : List Byte) : Except FaultKind State :=
  if c.memSize < c.programStart.toNat + (programBytes rom).length then .error (.loadError rom.length)
  else .ok ((State.construct c).writeBytes c.programStart.toNat (programBytes rom))

end Sys2Proof.Machine
end

