-- ==== Sys2Proof/Machine/Outputs.lean ====
section
/-! DEFINITION. What the host reads between ticks (60_exceptions.md R245, R249 to R252). None of it changes the state. -/

namespace Sys2Proof.Machine

/-- The cause codes of 60_exceptions.md R230 (decision D23). -/
def FaultKind.code : FaultKind → Nat
  | .invalidInstruction => 1
  | .memoryOutOfRange _ => 2
  | .stackOverflow _ => 3
  | .stackUnderflow => 4
  | .invalidKey _ => 5
  | .undefinedResult _ => 6
  | .loadError _ => 7

/-- `sound_on`: ST is not 0 at the end of the tick (60_exceptions.md R251; decision D32, log 24). The output `st` is the
field itself. -/
def State.soundOn (s : State) : Bool := decide (s.st ≠ 0x00#8)

/-- The pixel at column px, row py: bit `7 - (px mod 8)` of byte `py * 8 + px div 8`; true is lit (44_display.md R190). -/
def State.pixel (s : State) (px : Fin (reduceProj% (delta% Sizes.hardware).fbColumns))
    (py : Fin (reduceProj% (delta% Sizes.hardware).fbRows)) : Bool :=
  (fbByte s.fb (py.val * 8 + px.val / 8)).getLsbD (7 - px.val % 8)

/-- The debug snapshot (60_exceptions.md R252): registers, I, the stack with its pointer, and memory near I. -/
structure Snapshot where
  v : RegFile
  i : IndexWord
  stack : ReturnStack
  sp : StackCount
  memory : List Host.Cell
deriving DecidableEq, Repr

/-- The snapshot, with the memory from `before` below I to `after` above it. DESIGN CHOICE (log 24): the source leaves the window
and its text form open (decision D42). Here its two widths are arguments; it is cut off at address 0, so that it starts there
when I is less than `before`, and at the end of memory, and it never runs past I + `after`. -/
def State.snapshot (s : State) (before after : Nat) : Snapshot where
  v := s.v
  i := s.i
  stack := s.stack
  sp := s.sp
  memory := (List.range' (s.i.toNat - before) (s.i.toNat + after + 1 - (s.i.toNat - before))).filterMap fun a =>
    if a < s.cfg.memSize then some (a, s.byteAt a) else none

end Sys2Proof.Machine
end

