-- ==== Sys2Proof/Machine/Step.lean ====
section
/-! DEFINITION. One tick (40_execution_cycle.md R100 to R112), and the placing of a word where the next tick fetches. -/

namespace Sys2Proof.Machine

/-- The tick of 40_execution_cycle.md R109: inputs and timers, fetch, decode, pre-increment, execute. A fault of the fetch
has no opcode in its record; a word that decodes to `Invalid` is recorded with its address (R102, R103). A faulted engine has
no tick (R112). -/
def step (s : State) : Host.Outcome State Fault Refusal :=
  match s.run with
  | .faulted record => .fault (.stopped record)
  | .running =>
    match fetch (beginTick s) with
    | .error a => .next (enterFault (.memoryOutOfRange a) s.pc none (beginTick s))
    | .ok op =>
      match decode s.cfg op with
      | .error _ => .next (enterFault .invalidInstruction s.pc (some op) (beginTick s))
      | .ok i => exec i (preIncrement (beginTick s))

/-- `s` with the word of a table row (30_encoding.md R71: two bytes) stored at pc, where `step` fetches. -/
def State.withFetchWord (s : State) (nbits w : Nat) : State :=
  s.writeBytes s.pc.toNat [(bytesOfWord (tableWord nbits w)).1, (bytesOfWord (tableWord nbits w)).2]

end Sys2Proof.Machine
end

