-- ==== Sys2Proof/Safety.lean ====
section
/-! DEFINITION. The terms claims are stated in: what an instruction leaves unchanged, the invariant of a state, runs, and the
host's contract about keys. Nothing here is part of the machine. -/

namespace Sys2Proof.Machine

/-- The parts of the state an instruction may change, besides the general registers and the status output. -/
inductive Part where
  | pc
  | i
  | stack
  | dt
  | st
  | fb
  | mem
  | run
deriving DecidableEq, Repr

/-- THE FRAME: `t` is `s` but for the registers listed in `regs`, the parts listed in `parts`, and the status output.
Memory is compared by what every address reads as. The inputs of the tick, the supplied inputs, the tick count and the
parameters are the same in any case. -/
def Frame (regs : List RegIdx) (parts : List Part) (s t : State) : Prop :=
  (∀ r, r ∉ regs → t.reg r = s.reg r) ∧
  (Part.pc ∉ parts → t.pc = s.pc) ∧
  (Part.i ∉ parts → t.i = s.i) ∧
  (Part.stack ∉ parts → t.stack = s.stack ∧ t.sp = s.sp) ∧
  (Part.dt ∉ parts → t.dt = s.dt) ∧
  (Part.st ∉ parts → t.st = s.st) ∧
  (Part.fb ∉ parts → t.fb = s.fb) ∧
  (Part.mem ∉ parts → ∀ a, t.byteAt a = s.byteAt a) ∧
  (Part.run ∉ parts → t.run = s.run) ∧
  t.input = s.input ∧ t.inputs = s.inputs ∧ t.ticks = s.ticks ∧ t.cfg = s.cfg

/-- The `n` bytes from `base` are backed (20_memory.md R55, R56). -/
def Backed (c : Config) (base n : Nat) : Prop := ∀ k, k < n → base + k < c.memSize

/-- `a` is the lowest address of the `n` bytes from `base` that is not backed (60_exceptions.md R230, R238). -/
def LowestUnbacked (c : Config) (base n a : Nat) : Prop :=
  (∃ k, k < n ∧ a = base + k) ∧ c.memSize ≤ a ∧ ∀ k, k < n → c.memSize ≤ base + k → a ≤ base + k

/-- `t` is the end of a tick that faulted in its execute phase, entered as `s` with pc = a + 2 (40_execution_cycle.md R108):
pc is a, run and status hold the record, and nothing else changed. -/
def FaultedFrom (kind : FaultKind) (s t : State) : Prop :=
  t.pc = s.pc - 2#16 ∧
  t.run = .faulted { kind := kind, address := s.pc - 2#16, opcode := some (s.wordAt (s.pc - 2#16).toNat) } ∧
  t.status = some (.fault { kind := kind, address := s.pc - 2#16, opcode := some (s.wordAt (s.pc - 2#16).toNat) }) ∧
  t.mem = s.mem ∧ Frame [] [.pc, .run] s t

/-- COMPLETION: `exec i s` ANSWERS A NEXT STATE that is the instruction's own effect: the status is `r`, nothing changed but
the registers `regs` and the parts `parts`, and `post` holds of it. With `run` outside `parts`, the tick does not fault. -/
def Completes (i : Instr) (s : State) (r : Status) (regs : List RegIdx) (parts : List Part) (post : State → Prop) : Prop :=
  ∃ t, exec i s = .next t ∧ t.status = some r ∧ Frame regs parts s t ∧ post t

/-- TRAPPING: `exec i s` answers the state in which the fault `kind` was taken. -/
def Traps (i : Instr) (s : State) (kind : FaultKind) : Prop := ∃ t, exec i s = .next t ∧ FaultedFrom kind s t

/-- A flag-writing ALU instruction with destination V[x] has a result: x is not VF, or VF as destination is allowed by
`VF_DEST_POLICY` (42_alu.md R140). -/
def DestAllowed (s : State) (x : RegIdx) : Prop := x ≠ VF ∨ s.cfg.vfDest = .lastWriteWins

/-- The record of a fault is as 60_exceptions.md R230 says: the address of a memory fault is not backed, a stack overflow
records the depth of the stack, an invalid key value is above 0xF, an undefined result is VF's and needs its policy, a load
error ends no tick, and the opcode is absent only from the record of a memory fault. -/
def FaultRecord.legal (c : Config) (r : FaultRecord) : Bool :=
  match r.kind with
  | .invalidInstruction => r.opcode.isSome
  | .memoryOutOfRange a => decide (c.memSize ≤ a)
  | .stackOverflow n => decide (n = c.stackDepth.val) && r.opcode.isSome
  | .stackUnderflow => r.opcode.isSome
  | .invalidKey v => decide (15 < v.toNat) && r.opcode.isSome
  | .undefinedResult x => decide (x = VF) && decide (c.vfDest = .fault) && r.opcode.isSome
  | .loadError _ => false

/-- Run state and status output agree, and a faulted engine's pc is the faulting instruction's address
(40_execution_cycle.md R108; 60_exceptions.md R239, R240). -/
def State.runAgrees (s : State) : Bool :=
  match s.run, s.status with
  | .faulted r, some (.fault q) => decide (q = r) && decide (s.pc = r.address) && FaultRecord.legal s.cfg r
  | .faulted _, _ => false
  | .running, some (.fault _) => false
  | .running, _ => true

/-- THE INVARIANT: memory is in canonical form, run state, status and pc agree, and SP is at most STACK_DEPTH (10_state.md R28). -/
def State.Inv (s : State) : Prop :=
  Memory.wf s.cfg s.mem = true ∧ s.runAgrees = true ∧ s.sp.val ≤ s.cfg.stackDepth.val

/-- The word that the tick starting in `s` fetches, when both its bytes are backed, decodes to `i` (40_execution_cycle.md
R102, R103). -/
def NextInstr (s : State) (i : Instr) : Prop :=
  Backed s.cfg s.pc.toNat 2 ∧ decode s.cfg (s.wordAt s.pc.toNat) = .ok i

/-- `t` is reached from `s` in `n` ticks. -/
def ReachedIn (n : Nat) (s t : State) : Prop := Sys2Proof.core.run n s = Host.Outcome.next t

/-- A safe run of `n` ticks: it ends in a running state, so no tick of it faulted (10_state.md R34; 40_execution_cycle.md R112). -/
def SafeFor (n : Nat) (s : State) : Prop := ∃ t, ReachedIn n s t ∧ t.run = .running

/-- The host's contract about one key, tick to tick: "up→pressed→down", a key survives from `pressed` to `down` if still held,
a released key returns to `up` (60_exceptions.md R247). The machine itself does not rely on it (log 6). -/
def keyMayFollow : KeyState → KeyState → Bool
  | .up, .up | .up, .pressed => true
  | .pressed, .down | .pressed, .up => true
  | .down, .down | .down, .up => true
  | .up, .down | .pressed, .pressed | .down, .pressed => false

/-- The host's contract about a list of supplied inputs: every key follows the progression (60_exceptions.md R247). -/
def inputsLegal : List TickInput → Bool
  | a :: b :: rest => allKeys.all (fun k => keyMayFollow a.keys[k.val] b.keys[k.val]) && inputsLegal (b :: rest)
  | _ => true

end Sys2Proof.Machine
end

