-- ==== Sys2Proof/Certificates/Slice0/Obligations.lean ====
section
/-! DEFINITION. The statements for the provers. Each docstring names the rules of spec/ it formalises, and the decision or log
entry behind it where the spec marks the content as its own choice. -/

open Sys2Proof Sys2Proof.Machine

/-! ### Decoding and encoding (30_encoding.md) -/

/-- Words written out from the encodings of 30_encoding.md R78 decode to the instructions they stand for, one or more of each
of the sixteen families (PRESUMED values: decision D38, log 12). That 0x5121 and 0x0123 are Invalid is the value that
Config.hardware gives to two policies, the spec's choice and not the source's (R79, R83; decisions D6, D7, log 2). -/
def Obligations.WrittenWordsDecode : Prop :=
  decode Config.hardware 0x00E0#16 = .ok .cls ∧ decode Config.hardware 0x00EE#16 = .ok .ret ∧
  decode Config.hardware 0x1200#16 = .ok (.jp 0x200#12) ∧ decode Config.hardware 0x2210#16 = .ok (.call 0x210#12) ∧
  decode Config.hardware 0x3342#16 = .ok (.seImm 3 0x42#8) ∧ decode Config.hardware 0x9120#16 = .ok (.sneReg 1 2) ∧
  decode Config.hardware 0x4342#16 = .ok (.sneImm 3 0x42#8) ∧ decode Config.hardware 0x5120#16 = .ok (.seReg 1 2) ∧
  decode Config.hardware 0xA300#16 = .ok (.ldI 0x300#12) ∧ decode Config.hardware 0xC30F#16 = .ok (.rnd 3 0x0F#8) ∧
  decode Config.hardware 0x6A05#16 = .ok (.ldImm 0xA 0x05#8) ∧ decode Config.hardware 0x7A10#16 = .ok (.addImm 0xA 0x10#8) ∧
  decode Config.hardware 0x8125#16 = .ok (.sub 1 2) ∧ decode Config.hardware 0x8127#16 = .ok (.subn 1 2) ∧
  decode Config.hardware 0xB300#16 = .ok (.jpV0 0x300#12) ∧ decode Config.hardware 0xD235#16 = .ok (.drw 2 3 0x5#4) ∧
  decode Config.hardware 0xE4A1#16 = .ok (.sknp 4) ∧ decode Config.hardware 0xF30A#16 = .ok (.ldVxK 3) ∧
  decode Config.hardware 0xF155#16 = .ok (.ldMemVx 1) ∧ decode Config.hardware 0x8008#16 = .error .subOpcode8 ∧
  decode Config.hardware 0x5121#16 = .error .lowNibble59 ∧ decode Config.hardware 0x0123#16 = .error .family0

/-- DECODE AND ENCODE AGREE, for every instruction and every value of the parameters: the word of a well-formed instruction
that the machine has decodes to that instruction, every operand kept (30_encoding.md R76, R78). -/
def Obligations.EncodedInstructionDecodes : Prop :=
  ∀ (c : Config) (i : Instr), i.wf = true → i.available c = true → decode c (encode i) = .ok i

/-- The other direction: what a word decodes to is well formed and available, and under `DECODE_59_POLICY = Strict` its word is
that very word, so each word has one meaning (30_encoding.md R77, R83). -/
def Obligations.DecodedWordIsItsEncoding : Prop :=
  ∀ (c : Config) (op : Word) (i : Instr), decode c op = .ok i →
    i.wf = true ∧ i.available c = true ∧ (c.decode59 = .strict → encode i = op)

/-- The reserved sub-opcodes of families 8, 0xE and 0xF are exactly those of 30_encoding.md R80, R81, R82, and the families
of R84 decode every word. The sub-opcode values are general knowledge, not the source's (PRESUMED: R76, R78, decision D38,
log 12). -/
def Obligations.ReservedSubOpcodesAreInvalid : Prop :=
  ∀ (c : Config) (op : Word),
    (op.toNat / 4096 = 0x8 → (decode c op = .error .subOpcode8 ↔ 0x8 ≤ op.toNat % 16 ∧ op.toNat % 16 ≠ 0xE)) ∧
    (op.toNat / 4096 = 0xE → (decode c op = .error .subOpcodeE ↔ op.toNat % 256 ≠ 0x9E ∧ op.toNat % 256 ≠ 0xA1)) ∧
    (op.toNat / 4096 = 0xF → (decode c op = .error .subOpcodeF ↔
      op.toNat % 256 ∉ [0x07, 0x0A, 0x15, 0x18, 0x1E, 0x29, 0x33, 0x55, 0x65])) ∧
    (op.toNat / 4096 ∈ [0x1, 0x2, 0x3, 0x4, 0x6, 0x7, 0xA, 0xB, 0xC, 0xD] → ∃ i, decode c op = .ok i)

/-- The words that a policy decides: family 0 other than 0x00E0 and 0x00EE (30_encoding.md R79, decision D6), families 5 and 9
with a low nibble other than 0 (R83, decision D7). -/
def Obligations.PolicyDecidesWords : Prop :=
  ∀ (c : Config),
    (∀ nnn : Addr, decode c (wordNNN 0x0#4 nnn) =
      if nnn = 0x0E0#12 then .ok .cls else if nnn = 0x0EE#12 then .ok .ret
      else if c.sysPolicy = .nop then .ok (.sys nnn) else .error .family0) ∧
    (∀ (x y : RegIdx) (n : Nibble),
      (decode c (wordXYN 0x5#4 x y n) =
        if n = 0x0#4 ∨ c.decode59 = .ignoreLowNibble then .ok (.seReg x y) else .error .lowNibble59) ∧
      (decode c (wordXYN 0x9#4 x y n) =
        if n = 0x0#4 ∨ c.decode59 = .ignoreLowNibble then .ok (.sneReg x y) else .error .lowNibble59))

/-- Decoding a list of bytes reads exactly the two bytes of the first instruction, high byte first, and gives the rest; fewer
than two bytes hold no instruction (30_encoding.md R71; 20_memory.md R53, byte order PRESUMED, decision D1, log 11). -/
def Obligations.BytesDecodeToInstruction : Prop :=
  ∀ (c : Config), (∀ (i : Instr) (rest : List Byte), i.wf = true → i.available c = true →
      decodeBytes c (encodeBytes i ++ rest) = .ok (i, rest)) ∧
    (∀ bytes : List Byte, bytes.length < 2 → decodeBytes c bytes = .error .truncated)

/-! ### Reset and load (10_state.md R37; 70_reset_and_hazards.md) -/

/-- The state after reset (10_state.md R37). pc, and that a font is preloaded at 0x000, are the source's; the glyph bytes are
general knowledge (70_reset_and_hazards.md R262; PRESUMED: decision D27, log 13); the zeros are decision D9 (log 3). -/
def Obligations.ResetValues : Prop :=
  State.reset.pc = 0x200#16 ∧ (∀ r, State.reset.reg r = 0x00#8) ∧ State.reset.i = 0x0000#16 ∧ State.reset.sp = 0 ∧
  (∀ k (h : k < 15), State.reset.stack[k] = 0x0000#16) ∧ State.reset.dt = 0x00#8 ∧ State.reset.st = 0x00#8 ∧
  (∀ b, fbByte State.reset.fb b = 0x00#8) ∧ State.reset.run = .running ∧
  (∀ a (h : a < 80), State.reset.byteAt a = Config.standardFont[a]) ∧ (∀ a, 80 ≤ a → State.reset.byteAt a = 0x00#8)

/-- Construction from a ROM (70_reset_and_hazards.md R261, R263 to R265): `p` is the ROM without one leading marker 43 38 50.
A program that fits stands at PROGRAM_START, 0x200 on this hardware, every other byte and every other piece of state is as
after reset, and memory is canonical; one that does not fit is a LoadError (marker bytes and zeros: decisions D26, D9, log
27, 3; the recorded length: log 10). -/
def Obligations.RomIsPlacedOrRefused : Prop :=
  ∀ (c : Config) (rom p : List Byte),
    (rom = 0x43#8 :: 0x38#8 :: 0x50#8 :: p ∨ (rom = p ∧ ∀ q, rom ≠ 0x43#8 :: 0x38#8 :: 0x50#8 :: q)) →
    (c.programStart.toNat + p.length ≤ c.memSize → ∃ s, constructFromRom c rom = .ok s ∧
      (∀ j (h : j < p.length), s.byteAt (c.programStart.toNat + j) = p[j]) ∧
      (∀ a, a < c.programStart.toNat ∨ c.programStart.toNat + p.length ≤ a → s.byteAt a = (State.construct c).byteAt a) ∧
      s = { State.construct c with mem := s.mem } ∧ Memory.wf c s.mem = true) ∧
    (c.memSize < c.programStart.toNat + p.length → constructFromRom c rom = .error (.loadError rom.length))

/-! ### The tick (40_execution_cycle.md) -/

/-- A STEP RUNS THE DECODED INSTRUCTION: from a running state whose fetched word decodes to `i`, the step is `exec i` on the
state `u` in which pc was incremented by 2, each timer counted down by one unless 0, and the inputs of the tick taken (those
the host supplied, else free values: log 4); nothing else differs (40_execution_cycle.md R101 to R105, R109). -/
def Obligations.StepRunsDecodedInstruction : Prop :=
  ∀ (s : State) (i : Instr), s.run = .running → NextInstr s i →
    ∃ u, step s = exec i u ∧ u.pc = s.pc + 2#16 ∧
      u.dt.toNat = s.dt.toNat - 1 ∧ u.st.toNat = s.st.toNat - 1 ∧
      (∀ a rest, s.inputs = a :: rest → u.input = a ∧ u.inputs = rest) ∧
      (s.inputs = [] → u.input = Config.freeInput s.ticks ∧ u.inputs = []) ∧ u.ticks = s.ticks + 1 ∧
      u.v = s.v ∧ u.i = s.i ∧ u.stack = s.stack ∧ u.sp = s.sp ∧ u.fb = s.fb ∧ u.mem = s.mem ∧ u.run = s.run ∧
      u.status = s.status ∧ u.cfg = s.cfg

/-- A fetch at an address that is not backed faults with MemoryOutOfRange at pc, or else at pc + 1; the record has no opcode,
pc stays, and the timer phase stands (40_execution_cycle.md R102, R108; decisions D3, D8, log 16, 17). -/
def Obligations.FetchFaultsOutsideMemory : Prop :=
  ∀ (s : State) (a : Nat), s.run = .running → LowestUnbacked s.cfg s.pc.toNat 2 a →
    ∃ t, step s = .next t ∧
      t.run = .faulted { kind := .memoryOutOfRange a, address := s.pc, opcode := none } ∧
      t.status = some (.fault { kind := .memoryOutOfRange a, address := s.pc, opcode := none }) ∧
      t.pc = s.pc ∧ t.v = s.v ∧ t.i = s.i ∧ t.stack = s.stack ∧ t.sp = s.sp ∧ t.fb = s.fb ∧ t.mem = s.mem ∧
      t.dt.toNat = s.dt.toNat - 1 ∧ t.st.toNat = s.st.toNat - 1

/-- Decode failure: "fatal, terminates the run and is reported to the caller with the offending address and opcode"
(60_exceptions.md R231). The run state and the status hold the kind, the address and the word, and the next step takes no tick;
the engine "does not self-correct or skip": pc, registers, stack, framebuffer and memory are as before. -/
def Obligations.InvalidWordStopsTheRun : Prop :=
  ∀ (s : State) (e : InvalidWord), s.run = .running → Backed s.cfg s.pc.toNat 2 →
    decode s.cfg (s.wordAt s.pc.toNat) = .error e →
    ∃ t, step s = .next t ∧
      t.run = .faulted { kind := .invalidInstruction, address := s.pc, opcode := some (s.wordAt s.pc.toNat) } ∧
      t.status = some (.fault { kind := .invalidInstruction, address := s.pc, opcode := some (s.wordAt s.pc.toNat) }) ∧
      t.pc = s.pc ∧ t.v = s.v ∧ t.i = s.i ∧ t.stack = s.stack ∧ t.sp = s.sp ∧ t.fb = s.fb ∧ t.mem = s.mem ∧
      step t = .fault (.stopped { kind := .invalidInstruction, address := s.pc, opcode := some (s.wordAt s.pc.toNat) })

/-- No tick is taken from `Faulted`: the step stops with the record (40_execution_cycle.md R112; decision D28, log 1). -/
def Obligations.NoTickAfterFault : Prop :=
  ∀ (s : State) (r : FaultRecord), s.run = .faulted r → step s = .fault (.stopped r)

/-- Every tick of a running engine ends in a state: no instruction, word or operand value ends a run without one
(40_execution_cycle.md R100, R109; 30_encoding.md R77). -/
def Obligations.RunningTickAlwaysEnds : Prop :=
  ∀ s : State, s.run = .running → ∃ t, step s = .next t

/-- The timers in a whole tick, stalls and faults included: each counts down by one unless it is 0, but for the timer that the
tick's own LD DT, Vx or LD ST, Vx writes after the timer phase (40_execution_cycle.md R101; 45_keys_timers.md R215 to R217;
decision D25, log 17). -/
def Obligations.TimersCountEveryTick : Prop :=
  ∀ s t : State, step s = .next t →
    ((∀ x, ¬ NextInstr s (.ldDtVx x)) → t.dt.toNat = s.dt.toNat - 1) ∧
    ((∀ x, ¬ NextInstr s (.ldStVx x)) → t.st.toNat = s.st.toNat - 1) ∧
    (∀ x, NextInstr s (.ldDtVx x) → t.dt = s.reg x) ∧ (∀ x, NextInstr s (.ldStVx x) → t.st = s.reg x)

/-- FAULTS ARE PRECISE (40_execution_cycle.md R108; 60_exceptions.md R240; decisions D8, D25, log 17): a tick that ends faulted
changed nothing but the timers' count, pc is the faulting instruction's address and so is the recorded one, the opcode is
recorded exactly when both its bytes could be fetched and is the word in memory, and status and run hold one record. -/
def Obligations.FaultsArePrecise : Prop :=
  ∀ (s t : State) (r : FaultRecord), step s = .next t → t.run = .faulted r →
    t.v = s.v ∧ t.i = s.i ∧ t.stack = s.stack ∧ t.sp = s.sp ∧ t.fb = s.fb ∧ t.mem = s.mem ∧ t.pc = s.pc ∧
    t.dt.toNat = s.dt.toNat - 1 ∧ t.st.toNat = s.st.toNat - 1 ∧
    r.address = s.pc ∧ t.status = some (.fault r) ∧
    (Backed s.cfg s.pc.toNat 2 → r.opcode = some (s.wordAt s.pc.toNat)) ∧
    (¬ Backed s.cfg s.pc.toNat 2 → r.opcode = none)

/-- AN INVARIANT THAT EVERY STEP KEEPS: memory stays canonical (no cell at an address that is not backed among the rest),
run, status and pc agree, fault records are as 60_exceptions.md R230 says, and SP stays at most STACK_DEPTH (10_state.md
R28); no step changes the parameters (10_state.md R20: "memory size never changes after construction"). -/
def Obligations.StepKeepsInvariant : Prop :=
  ∀ s t : State, s.Inv → step s = .next t → t.Inv ∧ t.cfg = s.cfg

/-- The invariant holds after reset, and after construction from any ROM that loads. -/
def Obligations.ResetMeetsInvariant : Prop :=
  State.reset.Inv ∧ ∀ (c : Config) (rom : List Byte) (s : State), constructFromRom c rom = .ok s → s.Inv

/-- How each instruction leaves pc, `a` being its address (10_state.md R26), for a tick that does not fault: SKP and SKNP by
the state of the named key in the tick, LD Vx, K by whether a key is pressed in it (45_keys_timers.md R211, R212, R214).
Rests on pc arithmetic modulo 2^16 (decision D18, log 22), JP V0 without a mask (D16, log 22), the stack convention (D5, log
21), and SKNP as the complement of SKP (D11, log 26). -/
def Obligations.PcAfterTick : Prop :=
  ∀ (s t : State) (i : Instr), NextInstr s i → step s = .next t → t.run = .running →
    match i with
    | .jp nnn | .call nnn => t.pc.toNat = nnn.toNat
    | .jpV0 nnn => t.pc.toNat = nnn.toNat + (s.reg 0).toNat
    | .ret => ∃ h : 0 < s.sp.val, t.pc = s.stack[s.sp.val - 1]'(by omega)
    | .seImm x kk => t.pc = if s.reg x = kk then s.pc + 4#16 else s.pc + 2#16
    | .sneImm x kk => t.pc = if s.reg x = kk then s.pc + 2#16 else s.pc + 4#16
    | .seReg x y => t.pc = if s.reg x = s.reg y then s.pc + 4#16 else s.pc + 2#16
    | .sneReg x y => t.pc = if s.reg x = s.reg y then s.pc + 2#16 else s.pc + 4#16
    | .skp x => ∃ h : (s.reg x).toNat < 16,
        t.pc = if (beginTick s).keyState ⟨(s.reg x).toNat, h⟩ = .up then s.pc + 2#16 else s.pc + 4#16
    | .sknp x => ∃ h : (s.reg x).toNat < 16,
        t.pc = if (beginTick s).keyState ⟨(s.reg x).toNat, h⟩ = .up then s.pc + 4#16 else s.pc + 2#16
    | .ldVxK _ => t.pc = if ∃ k, (beginTick s).keyState k = .pressed then s.pc + 2#16 else s.pc
    | .cls | .sys _ | .ldImm _ _ | .addImm _ _ | .ldReg _ _ | .orReg _ _ | .andReg _ _ | .xorReg _ _ | .addReg _ _ | .sub _ _
    | .shr _ _ | .subn _ _ | .shl _ _ | .ldI _ | .rnd _ _ | .drw _ _ _ | .ldVxDt _ | .ldDtVx _ | .ldStVx _ | .addI _ | .ldF _
    | .ldB _ | .ldMemVx _ | .ldVxMem _ => t.pc = s.pc + 2#16

/-- "A stalled LD Vx, K ends its tick with pc = a and status Ok; the next tick runs the timer phase and fetches the same
instruction again" (40_execution_cycle.md R111): with no key in state `pressed`, the tick leaves everything but the timers and
the status as it was, and LD Vx, K is the instruction of the next tick again. -/
def Obligations.StalledWaitRepeats : Prop :=
  ∀ (s : State) (x : RegIdx), s.run = .running → NextInstr s (.ldVxK x) →
    (∀ k, (beginTick s).keyState k ≠ .pressed) →
    ∃ t, step s = .next t ∧ t.pc = s.pc ∧ t.status = some .ok ∧ t.run = .running ∧
      t.v = s.v ∧ t.i = s.i ∧ t.stack = s.stack ∧ t.sp = s.sp ∧ t.fb = s.fb ∧ t.mem = s.mem ∧
      t.dt.toNat = s.dt.toNat - 1 ∧ t.st.toNat = s.st.toNat - 1 ∧ NextInstr t (.ldVxK x)

/-- "A tick that does not fault returns `FramebufferChanged` if its instruction was DRW, and `Ok` otherwise." CLS is one of the
others (40_execution_cycle.md R106). -/
def Obligations.StatusOfATick : Prop :=
  ∀ (s t : State) (i : Instr), NextInstr s i → step s = .next t → t.run = .running →
    ((∃ x y n, i = .drw x y n) → t.status = some .framebufferChanged) ∧
    ((∀ x y n, i ≠ .drw x y n) → t.status = some .ok)

/-- A store is seen by the next fetch (20_memory.md R64; 70_reset_and_hazards.md R273; decision D24): when LD [I], Vx stores
over the two bytes after it, the next tick fetches V0 and V1 as its word. -/
def Obligations.StoredWordIsFetchedNext : Prop :=
  ∀ (s : State) (x : RegIdx), s.Inv → s.run = .running → NextInstr s (.ldMemVx x) → 1 ≤ x.val → s.i = s.pc + 2#16 →
    Backed s.cfg s.i.toNat (x.val + 1) →
    ∃ t, step s = .next t ∧ t.run = .running ∧ t.pc = s.i ∧ (t.wordAt t.pc.toNat).toNat = (s.reg 0).toNat * 256 + (s.reg 1).toNat

/-- `withFetchWord` places the word of a table row where the next tick fetches, and nothing else: both bytes, high byte first
(byte order PRESUMED, log 11), memory still canonical. -/
def Obligations.PlacedWordIsFetched : Prop :=
  ∀ (s : State) (w : Nat), s.Inv → Backed s.cfg s.pc.toNat 2 → w < 2 ^ 16 →
    ((s.withFetchWord 16 w).wordAt s.pc.toNat).toNat = w ∧ (s.withFetchWord 16 w).Inv ∧ Frame [] [.mem] s (s.withFetchWord 16 w) ∧
    ∀ a, a ≠ s.pc.toNat → a ≠ s.pc.toNat + 1 → (s.withFetchWord 16 w).byteAt a = s.byteAt a

/-! ### Who writes what: rules over all instructions -/

/-- The framebuffer is "mutated only by clear and draw instructions" (10_state.md R31). -/
def Obligations.OnlyClearAndDrawChangeFramebuffer : Prop :=
  ∀ s t : State, step s = .next t → t.fb ≠ s.fb → NextInstr s .cls ∨ ∃ x y n, NextInstr s (.drw x y n)

/-- The stack "is read and written only by CALL (push) and RET (pop)" (10_state.md R27): no other tick writes it or SP, and for
every other instruction the answer does not depend on what the stack holds. -/
def Obligations.OnlyCallAndReturnUseStack : Prop :=
  ∀ (i : Instr), i ≠ .ret → (∀ nnn, i ≠ .call nnn) → ∀ (s : State) (S : ReturnStack) (n : StackCount),
    ∃ t, exec i s = .next t ∧ t.stack = s.stack ∧ t.sp = s.sp ∧
      exec i { s with stack := S, sp := n } = .next { t with stack := S, sp := n }

/-- Memory is written by LD B and LD [I] only (20_memory.md R50), I by LD I, ADD I and LD F only (10_state.md R24), DT by LD DT
only and ST by LD ST only (10_state.md R29, R30), in the execute phase of every instruction. -/
def Obligations.WritersOfMemoryIndexAndTimers : Prop :=
  ∀ (i : Instr) (s t : State), exec i s = .next t →
    (t.mem ≠ s.mem → ∃ x, i = .ldB x ∨ i = .ldMemVx x) ∧
    (t.i ≠ s.i → (∃ nnn, i = .ldI nnn) ∨ ∃ x, i = .addI x ∨ i = .ldF x) ∧
    (t.dt ≠ s.dt → ∃ x, i = .ldDtVx x) ∧ (t.st ≠ s.st → ∃ x, i = .ldStVx x)

/-- The flag writers (10_state.md R23; decisions D14, D15, log 20): any other instruction whose destination is not VF leaves
VF. LD Vx, [I] writes VF only as V0 to Vx with x = 0xF. -/
def Obligations.OnlyFlagWritersChangeVF : Prop :=
  ∀ (i : Instr) (s t : State), exec i s = .next t → t.reg VF ≠ s.reg VF →
    (∃ x kk, i = .addImm x kk) ∨ (∃ x y, i = .addReg x y ∨ i = .sub x y ∨ i = .shr x y ∨ i = .subn x y ∨ i = .shl x y) ∨
    (∃ x y n, i = .drw x y n) ∨ (∃ kk, i = .ldImm VF kk ∨ i = .rnd VF kk) ∨
    (∃ y, i = .ldReg VF y ∨ i = .orReg VF y ∨ i = .andReg VF y ∨ i = .xorReg VF y) ∨
    i = .ldVxDt VF ∨ i = .ldVxK VF ∨ i = .ldVxMem VF

/-- NO INSTRUCTION READS ST (10_state.md R30): two states that differ in ST alone take the same tick, but for the ST they end
with, and that is the count of the one they started with unless the tick's instruction wrote it. -/
def Obligations.SoundTimerIsNeverRead : Prop :=
  ∀ (s t : State) (b : Byte), step s = .next t →
    ∃ b', step { s with st := b } = .next { t with st := b' } ∧
      ((∀ x, ¬ NextInstr s (.ldStVx x)) → b'.toNat = b.toNat - 1) ∧ (∀ x, NextInstr s (.ldStVx x) → b' = t.st)

/-! ### Control flow (41_control_flow.md) -/

/-- SYS nnn, where it exists, is "a legacy system call (ignored as a no-op)" (R120; decision D6, log 2). -/
def Obligations.SysIsNoOp : Prop :=
  ∀ (nnn : Addr) (s : State), Completes (.sys nnn) s .ok [] [] fun _ => True

/-- JP nnn sets "the program counter to exactly" nnn "regardless of its prior value" (R122), whatever nnn is, odd or not, and
faults in no state; a jump to the instruction's own address is the instruction of the next tick again; the word 0x1nnn is its
encoding. With MEM_SIZE = 4095, after a target of 0xFFE or 0xFFF the next fetch faults at 0xFFF: that this is a fault, and its
record, rest on the spec's choice (DESIGN CHOICE: decisions D2, D3, log 2, 16; 40_execution_cycle.md R102). -/
def Obligations.JumpSetsPc : Prop :=
  ∀ (nnn : Addr) (s : State), Completes (.jp nnn) s .ok [] [.pc] (fun t => t.pc.toNat = nnn.toNat ∧
      (s.run = .running → s.cfg.memSize = 4095 → 0xFFE ≤ nnn.toNat → ∃ w, step t = .next w ∧
        w.run = .faulted { kind := .memoryOutOfRange 0xFFF, address := t.pc, opcode := none })) ∧
    (s.run = .running → NextInstr s (.jp nnn) → nnn.toNat = s.pc.toNat →
      ∃ t, step s = .next t ∧ t.run = .running ∧ NextInstr t (.jp nnn)) ∧
    ∀ c, decode c (wordNNN 0x1#4 nnn) = .ok (.jp nnn)

/-- JP V0, nnn: the sum is not masked to 12 bits (R128; decision D16, log 22). -/
def Obligations.OffsetJumpAddsV0 : Prop :=
  ∀ (nnn : Addr) (s : State),
    Completes (.jpV0 nnn) s .ok [] [.pc] fun t => t.pc.toNat = nnn.toNat + (s.reg 0).toNat

/-- CALL nnn with room on the stack (SP below STACK_DEPTH, 15 on this hardware): the pc after the pre-increment goes to
S[SP], SP counts up, every other entry stays, pc is nnn (R123, R129; decision D5, log 21). -/
def Obligations.CallPushesReturnAddress : Prop :=
  ∀ (nnn : Addr) (s : State), s.sp.val < s.cfg.stackDepth.val →
    Completes (.call nnn) s .ok [] [.pc, .stack] fun t =>
      t.pc.toNat = nnn.toNat ∧ t.sp.val = s.sp.val + 1 ∧
      ∀ k (h : k < 15), t.stack[k] = if k = s.sp.val then s.pc else s.stack[k]

/-- RET with an entry on the stack: pc is the most recent entry as it is, SP counts down, every entry keeps its value (R121,
R130; 10_state.md R28, R36; decision D5, log 21). -/
def Obligations.ReturnPopsAddress : Prop :=
  ∀ (s : State) (h : 0 < s.sp.val),
    Completes .ret s .ok [] [.pc, .stack] fun t =>
      t.pc = s.stack[s.sp.val - 1]'(by omega) ∧ t.sp.val + 1 = s.sp.val ∧ t.stack = s.stack

/-- CALL on a full stack (SP at STACK_DEPTH, 15 on this hardware) is StackOverflow recording SP, RET on an empty one
StackUnderflow, SKP and SKNP with a register value that names no key InvalidKey recording it; each with the effects of a
fault and no other (R129, R130; 45_keys_timers.md R210; 60_exceptions.md R233 to R235; decisions D4, D10, log 16). -/
def Obligations.StackAndKeyFaults : Prop :=
  ∀ (s : State) (x : RegIdx) (nnn : Addr),
    (s.cfg.stackDepth.val ≤ s.sp.val → Traps (.call nnn) s (.stackOverflow s.sp.val)) ∧
    (s.sp.val = 0 → Traps .ret s .stackUnderflow) ∧
    (15 < (s.reg x).toNat → Traps (.skp x) s (.invalidKey (s.reg x)) ∧ Traps (.sknp x) s (.invalidKey (s.reg x)))

/-- The skips: pc moves two further when the condition holds, and stays where the pre-increment put it otherwise
(40_execution_cycle.md R107; R124 to R127). -/
def Obligations.SkipsOnComparison : Prop :=
  ∀ (x y : RegIdx) (kk : Byte) (s : State),
    Completes (.seImm x kk) s .ok [] [.pc] (fun t => t.pc = if s.reg x = kk then s.pc + 2#16 else s.pc) ∧
    Completes (.sneImm x kk) s .ok [] [.pc] (fun t => t.pc = if s.reg x = kk then s.pc else s.pc + 2#16) ∧
    Completes (.seReg x y) s .ok [] [.pc] (fun t => t.pc = if s.reg x = s.reg y then s.pc + 2#16 else s.pc) ∧
    Completes (.sneReg x y) s .ok [] [.pc] (fun t => t.pc = if s.reg x = s.reg y then s.pc else s.pc + 2#16)

/-! ### Loads and the ALU (42_alu.md) -/

/-- LD Vx, kk: V[x] is kk, VF changes only as destination, no fault; the word 0x6xkk is its encoding (R142). -/
def Obligations.LoadImmediateSetsRegister : Prop :=
  ∀ (x : RegIdx) (kk : Byte) (s : State), Completes (.ldImm x kk) s .ok [x] [] (fun t => t.reg x = kk) ∧
    ∀ c, decode c (wordXKK 0x6#4 x kk) = .ok (.ldImm x kk)

/-- LD Vx, Vy copies; OR, AND, XOR act bit by bit; none writes VF but as destination (R144 to R147; decision D14, log 20). -/
def Obligations.CopyAndLogic : Prop :=
  ∀ (x y : RegIdx) (s : State),
    Completes (.ldReg x y) s .ok [x] [] (fun t => t.reg x = s.reg y) ∧
    Completes (.orReg x y) s .ok [x] []
      (fun t => ∀ k, (t.reg x).getLsbD k = ((s.reg x).getLsbD k || (s.reg y).getLsbD k)) ∧
    Completes (.andReg x y) s .ok [x] []
      (fun t => ∀ k, (t.reg x).getLsbD k = ((s.reg x).getLsbD k && (s.reg y).getLsbD k)) ∧
    Completes (.xorReg x y) s .ok [x] []
      (fun t => ∀ k, (t.reg x).getLsbD k = ((s.reg x).getLsbD k ^^ (s.reg y).getLsbD k))

/-- ADD Vx, kk: V[x] is the sum modulo 256; VF is 1 if the sum exceeds 255 and 0 otherwise, unless x = 0xF, where the result
is what VF holds; UndefinedResult exactly when x = 0xF under `VF_DEST_POLICY = Fault`; the word 0x7xkk is its encoding
(R143). What happens with x = 0xF is R140's order of writes or its fault (DESIGN CHOICE: decision D13, log 14). -/
def Obligations.AddImmediateSetsCarry : Prop :=
  ∀ (x : RegIdx) (kk : Byte) (s : State),
    (DestAllowed s x → Completes (.addImm x kk) s .ok [x, VF] [] fun t =>
      (t.reg x).toNat = ((s.reg x).toNat + kk.toNat) % 256 ∧
      (x ≠ VF → (t.reg VF).toNat = if (s.reg x).toNat + kk.toNat > 255 then 1 else 0)) ∧
    (¬ DestAllowed s x → Traps (.addImm x kk) s (.undefinedResult VF)) ∧
    ∀ c, decode c (wordXKK 0x7#4 x kk) = .ok (.addImm x kk)

/-- ADD Vx, Vy: "sets the flag register to 1 iff the unsigned sum of the pre-instruction values exceeds 255, and leaves
register r holding the 8-bit wrapped sum" (R148); with x = 0xF the result stays (R140; decision D13, log 14). -/
def Obligations.AddRegistersSetsCarry : Prop :=
  ∀ (x y : RegIdx) (s : State), DestAllowed s x →
    Completes (.addReg x y) s .ok [x, VF] [] fun t =>
      (t.reg x).toNat = ((s.reg x).toNat + (s.reg y).toNat) % 256 ∧
      (x ≠ VF → (t.reg VF).toNat = if (s.reg x).toNat + (s.reg y).toNat > 255 then 1 else 0)

/-- SUB and SUBN: the difference modulo 256; VF is 1 exactly when the minuend is strictly greater, so equal operands give 0
(R141, R149, R151); with x = 0xF the result stays (R140; decision D13, log 14). -/
def Obligations.SubtractSetsStrictFlag : Prop :=
  ∀ (x y : RegIdx) (s : State), DestAllowed s x →
    Completes (.sub x y) s .ok [x, VF] [] (fun t =>
      (t.reg x).toNat = ((s.reg x).toNat + 256 - (s.reg y).toNat) % 256 ∧
      (x ≠ VF → (t.reg VF).toNat = if (s.reg x).toNat > (s.reg y).toNat then 1 else 0)) ∧
    Completes (.subn x y) s .ok [x, VF] [] (fun t =>
      (t.reg x).toNat = ((s.reg y).toNat + 256 - (s.reg x).toNat) % 256 ∧
      (x ≠ VF → (t.reg VF).toNat = if (s.reg y).toNat > (s.reg x).toNat then 1 else 0))

/-- SHR and SHL: one place, zero fill, VF is the bit shifted out; V[y] plays no part, whatever y is (R150, R152); with x = 0xF
the result stays (R140; decision D13, log 14). -/
def Obligations.ShiftsByOne : Prop :=
  ∀ (x y : RegIdx) (s : State), DestAllowed s x →
    Completes (.shr x y) s .ok [x, VF] [] (fun t =>
      (∀ k, (t.reg x).getLsbD k = (s.reg x).getLsbD (k + 1)) ∧
      (x ≠ VF → (t.reg VF).toNat = if (s.reg x).getLsbD 0 then 1 else 0)) ∧
    Completes (.shl x y) s .ok [x, VF] [] (fun t =>
      (∀ k, k < 8 → (t.reg x).getLsbD k = (decide (0 < k) && (s.reg x).getLsbD (k - 1))) ∧
      (x ≠ VF → (t.reg VF).toNat = if (s.reg x).getLsbD 7 then 1 else 0))

/-- Under `VF_DEST_POLICY = Fault` the six flag-writing ALU instructions with x = 0xF raise UndefinedResult and write nothing
(R140; 60_exceptions.md R236; decision D13, log 14). -/
def Obligations.UndefinedResultUnderPolicy : Prop :=
  ∀ (y : RegIdx) (kk : Byte) (s : State), s.cfg.vfDest = .fault →
    Traps (.addImm VF kk) s (.undefinedResult VF) ∧ Traps (.addReg VF y) s (.undefinedResult VF) ∧
    Traps (.sub VF y) s (.undefinedResult VF) ∧ Traps (.subn VF y) s (.undefinedResult VF) ∧
    Traps (.shr VF y) s (.undefinedResult VF) ∧ Traps (.shl VF y) s (.undefinedResult VF)

/-- RND Vx, kk: the byte the random source gives in the tick, under the mask; any byte may be given (R153; 60_exceptions.md
R248; decision D31, log 4). -/
def Obligations.RandomByteUnderMask : Prop :=
  ∀ (x : RegIdx) (kk r : Byte) (s : State),
    Completes (.rnd x kk) { s with input := { s.input with rand := r } } .ok [x] [] fun t =>
      ∀ k, (t.reg x).getLsbD k = (r.getLsbD k && kk.getLsbD k)

/-! ### The index register and memory (43_index_memory.md) -/

/-- LD I, nnn; ADD I, Vx modulo 2^16, VF untouched; LD F, Vx as the font's base plus the glyph size times the value,
modulo 2^16 and unmasked, which is five times the value with the base 0 and the size 5 of this hardware (R170 to R172;
00_scope.md R8; decisions D15, D22, log 2, 20, 23). -/
def Obligations.IndexRegisterWrites : Prop :=
  ∀ (nnn : Addr) (x : RegIdx) (s : State),
    Completes (.ldI nnn) s .ok [] [.i] (fun t => t.i.toNat = nnn.toNat) ∧
    Completes (.addI x) s .ok [] [.i] (fun t => t.i.toNat = (s.i.toNat + (s.reg x).toNat) % 65536) ∧
    Completes (.ldF x) s .ok [] [.i] (fun t =>
      t.i.toNat = (s.cfg.fontBase + s.cfg.glyphSize * (s.reg x).toNat) % 65536 ∧
      (s.cfg.fontBase = 0 → s.cfg.glyphSize = 5 → t.i.toNat = 5 * (s.reg x).toNat))

/-- LD B, Vx: the hundreds, tens and ones of V[x] at I, I + 1, I + 2, and no other byte of memory (R173). -/
def Obligations.DecimalDigitsStored : Prop :=
  ∀ (x : RegIdx) (s : State), Memory.wf s.cfg s.mem = true → Backed s.cfg s.i.toNat 3 →
    Completes (.ldB x) s .ok [] [.mem] fun t =>
      (t.byteAt s.i.toNat).toNat = (s.reg x).toNat / 100 ∧
      (t.byteAt (s.i.toNat + 1)).toNat = (s.reg x).toNat / 10 % 10 ∧
      (t.byteAt (s.i.toNat + 2)).toNat = (s.reg x).toNat % 10 ∧
      ∀ a, a < s.i.toNat ∨ s.i.toNat + 3 ≤ a → t.byteAt a = s.byteAt a

/-- LD [I], Vx: V0 to Vx at I and up, and no other byte of memory (R174). -/
def Obligations.BulkStoreWritesRegisters : Prop :=
  ∀ (x : RegIdx) (s : State), Memory.wf s.cfg s.mem = true → Backed s.cfg s.i.toNat (x.val + 1) →
    Completes (.ldMemVx x) s .ok [] [.mem] fun t =>
      (∀ k : RegIdx, k ≤ x → t.byteAt (s.i.toNat + k.val) = s.reg k) ∧
      ∀ a, a < s.i.toNat ∨ s.i.toNat + x.val + 1 ≤ a → t.byteAt a = s.byteAt a

/-- LD Vx, [I]: V0 to Vx from I and up, the registers above x and all else unchanged (R175). -/
def Obligations.BulkLoadReadsRegisters : Prop :=
  ∀ (x : RegIdx) (s : State), Backed s.cfg s.i.toNat (x.val + 1) →
    Completes (.ldVxMem x) s .ok (List.finRange 16) [] fun t =>
      ∀ k : RegIdx, t.reg k = if k ≤ x then s.byteAt (s.i.toNat + k.val) else s.reg k

/-- The round trip: "bulk-store registers 0..=N to memory at index I, then bulk-load N+1 bytes from I, reproduces the original
register values exactly, for all N in 0..=15 and all I such that I+N < memory size" (R175), whatever happened between to the
registers and the rest of the state, memory, I and the parameters apart. -/
def Obligations.StoreThenLoadRestoresRegisters : Prop :=
  ∀ (x : RegIdx) (s : State), Memory.wf s.cfg s.mem = true → s.i.toNat + x.val < s.cfg.memSize →
    ∃ t, exec (.ldMemVx x) s = .next t ∧ t.run = s.run ∧
      ∀ u : State, u.mem = t.mem → u.i = t.i → u.cfg = t.cfg →
        ∃ w, exec (.ldVxMem x) u = .next w ∧ w.run = u.run ∧ ∀ k : RegIdx, k ≤ x → w.reg k = s.reg k

/-- LD B, LD [I], LD Vx, [I] and DRW raise MemoryOutOfRange at the lowest address of their access that is not backed, with no
effect but a fault's (R173 to R175; 44_display.md R192; 60_exceptions.md R232, R238; decisions D3, D8, D35, log 16, 17). -/
def Obligations.UnbackedAccessFaults : Prop :=
  ∀ (x y : RegIdx) (n : Nibble) (a : Nat) (s : State),
    (LowestUnbacked s.cfg s.i.toNat 3 a → Traps (.ldB x) s (.memoryOutOfRange a)) ∧
    (LowestUnbacked s.cfg s.i.toNat (x.val + 1) a →
      Traps (.ldMemVx x) s (.memoryOutOfRange a) ∧ Traps (.ldVxMem x) s (.memoryOutOfRange a)) ∧
    (LowestUnbacked s.cfg s.i.toNat n.toNat a → Traps (.drw x y n) s (.memoryOutOfRange a))

/-- The font is "fixed, read-only by convention though not enforced. A store into 0x000 to 0x04F succeeds and changes what
later DRW reads" (20_memory.md R52): LD [I], Vx with I + x inside the font completes, and a DRW of up to x + 1 rows at the
same I then draws the stored registers. -/
def Obligations.FontIsWritable : Prop :=
  ∀ (x cx cy : RegIdx) (n : Nibble) (s : State), Memory.wf s.cfg s.mem = true → s.i.toNat + x.val ≤ 0x04F →
    80 ≤ s.cfg.memSize → n.toNat ≤ x.val + 1 →
    ∃ t, exec (.ldMemVx x) s = .next t ∧ t.run = s.run ∧ ∃ w, exec (.drw cx cy n) t = .next w ∧ w.run = s.run ∧
      ∀ r : RegIdx, r.val < n.toNat →
        let b := (((s.reg cy).toNat + r.val) * 8 + (s.reg cx).toNat / 8) % 256
        fbByte w.fb b = fbByte s.fb b ^^^ (s.reg r >>> ((s.reg cx).toNat % 8))

/-! ### Display (44_display.md) -/

/-- CLS: 256 zero bytes whatever stood there, VF not written, status Ok, no fault; the word 0x00E0 is its encoding (R191). -/
def Obligations.ClearZeroesFramebuffer : Prop :=
  ∀ s : State, Completes .cls s .ok [] [.fb] (fun t => ∀ b, fbByte t.fb b = 0x00#8) ∧
    ∀ c, decode c 0x00E0#16 = .ok .cls

/-- DRW Vx, Vy, n on backed rows, byte by byte: row r is XORed into byte b0 and its spill into byte b1 of R193, with the
masks of R194; every other byte stays; VF is 1 exactly when one of these bytes had a lit pixel under its mask (R195); the
status is FramebufferChanged. It holds for n = 0 (R196) and for x or y = 0xF, whose value before the draw is the coordinate
(R192). The formula and the collision are the spec's decisions D19, D20, D21, D43 (log 15). -/
def Obligations.DrawChangesSpannedBytes : Prop :=
  ∀ (x y : RegIdx) (n : Nibble) (s : State), Backed s.cfg s.i.toNat n.toNat →
    let b0 := fun r => (((s.reg y).toNat + r) * 8 + (s.reg x).toNat / 8) % 256
    let b1 := fun r => (b0 r + 1) % 256
    let m0 := fun r => s.byteAt (s.i.toNat + r) >>> ((s.reg x).toNat % 8)
    let m1 := fun r => s.byteAt (s.i.toNat + r) <<< (8 - (s.reg x).toNat % 8)
    Completes (.drw x y n) s .framebufferChanged [VF] [.fb] fun t =>
      (∀ r, r < n.toNat → fbByte t.fb (b0 r) = fbByte s.fb (b0 r) ^^^ m0 r ∧
        fbByte t.fb (b1 r) = fbByte s.fb (b1 r) ^^^ m1 r) ∧
      (∀ b, b < 256 → (∀ r, r < n.toNat → b ≠ b0 r ∧ b ≠ b1 r) → fbByte t.fb b = fbByte s.fb b) ∧
      (t.reg VF = 0x00#8 ∨ t.reg VF = 0x01#8) ∧
      (t.reg VF = 0x01#8 ↔ ∃ r, r < n.toNat ∧
        (fbByte s.fb (b0 r) &&& m0 r ≠ 0x00#8 ∨ fbByte s.fb (b1 r) &&& m1 r ≠ 0x00#8))

/-- DRW, PIXEL BY PIXEL: with the 64 x 32 pixels of R190 numbered `py * 64 + px`, column j of sprite row r (bit 7 - j of the
row) lands on pixel number `(V[y] + r) * 64 + V[x] + j` modulo 2048; each such pixel is flipped when the bit is 1; every
other pixel stays; VF is 1 exactly when a lit pixel was turned off. (An equivalence with the byte formula of R192 to R195;
decisions D19, D20, D43, log 15.) -/
def Obligations.DrawFlipsPixels : Prop :=
  ∀ (x y : RegIdx) (n : Nibble) (s t : State), Backed s.cfg s.i.toNat n.toNat → exec (.drw x y n) s = .next t →
    let lands := fun (r j : Nat) (px : Fin 64) (py : Fin 32) =>
      py.val * 64 + px.val = (((s.reg y).toNat + r) * 64 + (s.reg x).toNat + j) % 2048
    let bit := fun (r j : Nat) => (s.byteAt (s.i.toNat + r)).getLsbD (7 - j)
    (∀ r j px py, r < n.toNat → j < 8 → lands r j px py → t.pixel px py = (s.pixel px py ^^ bit r j)) ∧
    (∀ px py, (∀ r j, r < n.toNat → j < 8 → ¬ lands r j px py) → t.pixel px py = s.pixel px py) ∧
    (t.reg VF = 0x01#8 ↔ ∃ px py, s.pixel px py = true ∧ t.pixel px py = false)

/-- "drawing the same sprite twice at the same position with no other operation between restores the pre-draw framebuffer
(XOR self-inverse property)"; the second draw sets VF to 1 exactly when the first one lit a pixel, so after a clear
framebuffer exactly when the sprite has a 1 bit; and a draw of an all-zero sprite on a clear framebuffer leaves it clear
(R197; the VF values rest on R195, decision D20, log 15; that R197's own derived clause needs a pixel that was off is log
28). -/
def Obligations.DrawTwiceRestores : Prop :=
  ∀ (x y : RegIdx) (n : Nibble) (s t : State), Backed s.cfg s.i.toNat n.toNat → exec (.drw x y n) s = .next t →
    (∀ u : State, u.fb = t.fb → u.mem = t.mem → u.i = t.i → u.cfg = t.cfg → u.reg x = s.reg x → u.reg y = s.reg y →
      ∃ w, exec (.drw x y n) u = .next w ∧ w.fb = s.fb ∧
        (w.reg VF = 0x01#8 ↔ ∃ px py, s.pixel px py = false ∧ t.pixel px py = true) ∧
        ((∀ b, fbByte s.fb b = 0x00#8) →
          (w.reg VF = 0x01#8 ↔ ∃ r, r < n.toNat ∧ s.byteAt (s.i.toNat + r) ≠ 0x00#8))) ∧
    ((∀ b, fbByte s.fb b = 0x00#8) → (∀ r, r < n.toNat → s.byteAt (s.i.toNat + r) = 0x00#8) →
      ∀ b, fbByte t.fb b = 0x00#8)

/-- "Index-register instructions never write memory or registers other than those their rule names, and the bulk transfers, BCD
and DRW leave I unchanged" (43_index_memory.md R176): whatever the outcome, faults included; no instruction increments or
decrements I by itself. -/
def Obligations.IndexInstructionsWriteOnlyWhatTheyName : Prop :=
  ∀ (nnn : Addr) (x y : RegIdx) (n : Nibble) (s t : State),
    (exec (.ldI nnn) s = .next t ∨ exec (.addI x) s = .next t ∨ exec (.ldF x) s = .next t → Frame [] [.i] s t) ∧
    (Memory.wf s.cfg s.mem = true → exec (.ldB x) s = .next t → Frame [] [.pc, .mem, .run] s t ∧
      ∀ a, a < s.i.toNat ∨ s.i.toNat + 3 ≤ a → t.byteAt a = s.byteAt a) ∧
    (Memory.wf s.cfg s.mem = true → exec (.ldMemVx x) s = .next t → Frame [] [.pc, .mem, .run] s t ∧
      ∀ a, a < s.i.toNat ∨ s.i.toNat + x.val + 1 ≤ a → t.byteAt a = s.byteAt a) ∧
    (exec (.ldVxMem x) s = .next t → Frame ((List.finRange 16).filter (· ≤ x)) [.pc, .run] s t) ∧
    (exec (.drw x y n) s = .next t → Frame [VF] [.pc, .fb, .run] s t) ∧
    ∀ i, exec i s = .next t → t.i = s.i ∨ (∃ a, i = .ldI a) ∨ ∃ r, i = .addI r ∨ i = .ldF r

/-! ### Keys and timers (45_keys_timers.md) -/

/-- SKP skips unless the key is up, SKNP when it is: `pressed` and `down` are not told apart, and exactly one of the two skips
(R211, R212; the negative test is decision D11, log 26). -/
def Obligations.KeyTestsSkip : Prop :=
  ∀ (x : RegIdx) (s : State) (h : (s.reg x).toNat < 16),
    Completes (.skp x) s .ok [] [.pc]
      (fun t => t.pc = if s.input.keys[(s.reg x).toNat] = .up then s.pc else s.pc + 2#16) ∧
    Completes (.sknp x) s .ok [] [.pc]
      (fun t => t.pc = if s.input.keys[(s.reg x).toNat] = .up then s.pc + 2#16 else s.pc)

/-- LD Vx, DT; LD DT, Vx; LD ST, Vx (R213, R215, R216), on the timers as the timer phase left them. -/
def Obligations.TimerRegistersMove : Prop :=
  ∀ (x : RegIdx) (s : State),
    Completes (.ldVxDt x) s .ok [x] [] (fun t => t.reg x = s.dt) ∧
    Completes (.ldDtVx x) s .ok [] [.dt] (fun t => t.dt = s.reg x) ∧
    Completes (.ldStVx x) s .ok [] [.st] (fun t => t.st = s.reg x ∧ (t.soundOn = true ↔ s.reg x ≠ 0x00#8))

/-- LD Vx, K: with a pressed key, V[x] is the index of one and pc stays advanced; with none, pc goes back by 2 and nothing else
changes (R214). -/
def Obligations.WaitForKeyTakesPressedKey : Prop :=
  ∀ (x : RegIdx) (s : State),
    ((∃ k : KeyIdx, s.input.keys[k.val] = .pressed) → Completes (.ldVxK x) s .ok [x] [] fun t =>
      ∃ k : KeyIdx, s.input.keys[k.val] = .pressed ∧ (t.reg x).toNat = k.val) ∧
    ((∀ k : KeyIdx, s.input.keys[k.val] ≠ .pressed) → Completes (.ldVxK x) s .ok [] [.pc] fun t => t.pc = s.pc - 2#16)

/-- `KEY_CHOICE` is any element of the pressed set: for every pressed key some draw takes it (R214; decision D12, log 7). -/
def Obligations.EveryPressedKeyMayBeTaken : Prop :=
  ∀ (x : RegIdx) (k : KeyIdx) (s : State), s.input.keys[k.val] = .pressed →
    ∃ choice, ∃ t, exec (.ldVxK x) { s with input := { s.input with keyChoice := choice } } = .next t ∧
      (t.reg x).toNat = k.val ∧ t.pc = s.pc
end

