-- ==== Sys2Proof/Laws/Encoding.lean ====
section
/-! SUPPORT. The words the encoder builds and the fields the decoder reads, as numbers; so each field of a built word is the
field put in, and a word is rebuilt from its fields. -/

namespace Sys2Proof

/-! ### As numbers -/

theorem toNat_join {n m : Nat} (hi : BitVec n) (lo : BitVec m) :
    (hi ++ lo).toNat = hi.toNat * 2 ^ m + lo.toNat := by
  rw [BitVec.toNat_append, ← Nat.shiftLeft_add_eq_or_of_lt lo.isLt, Nat.shiftLeft_eq]

theorem toNat_wordNNN (f : Nibble) (a : Addr) : (wordNNN f a).toNat = f.toNat * 4096 + a.toNat := toNat_join f a

theorem toNat_wordXKK (f : Nibble) (x : RegIdx) (kk : Byte) :
    (wordXKK f x kk).toNat = f.toNat * 4096 + (x.val * 256 + kk.toNat) := by
  have h : (nibbleOfReg x ++ kk).toNat = x.val * 256 + kk.toNat := toNat_join (nibbleOfReg x) kk
  rw [← h]
  exact toNat_join f (nibbleOfReg x ++ kk)

theorem toNat_wordXYN (f : Nibble) (x y : RegIdx) (n : Nibble) :
    (wordXYN f x y n).toNat = f.toNat * 4096 + (x.val * 256 + (y.val * 16 + n.toNat)) := by
  have h1 : (nibbleOfReg y ++ n).toNat = y.val * 16 + n.toNat := toNat_join (nibbleOfReg y) n
  have h2 : (nibbleOfReg x ++ (nibbleOfReg y ++ n)).toNat = x.val * 256 + (nibbleOfReg y ++ n).toNat :=
    toNat_join (nibbleOfReg x) (nibbleOfReg y ++ n)
  rw [← h1, ← h2]
  exact toNat_join f _

theorem toNat_wordOfBytes (a b : Byte) : (wordOfBytes a b).toNat = a.toNat * 256 + b.toNat := toNat_join a b

theorem toNat_fieldFamily (op : Word) : (fieldFamily op).toNat = op.toNat / 4096 % 16 := by
  simp [fieldFamily, Nat.shiftRight_eq_div_pow]

theorem val_fieldX (op : Word) : (fieldX op).val = op.toNat / 256 % 16 := by
  simp [fieldX, regOfNibble, Nat.shiftRight_eq_div_pow]

theorem val_fieldY (op : Word) : (fieldY op).val = op.toNat / 16 % 16 := by
  simp [fieldY, regOfNibble, Nat.shiftRight_eq_div_pow]

theorem toNat_fieldN (op : Word) : (fieldN op).toNat = op.toNat % 16 := by simp [fieldN]
theorem toNat_fieldKK (op : Word) : (fieldKK op).toNat = op.toNat % 256 := by simp [fieldKK]
theorem toNat_fieldNNN (op : Word) : (fieldNNN op).toNat = op.toNat % 4096 := by simp [fieldNNN]

/-! ### A field of a built word -/

@[simp] theorem fieldFamily_wordNNN (f : Nibble) (a : Addr) : fieldFamily (wordNNN f a) = f := by
  apply BitVec.eq_of_toNat_eq; rw [toNat_fieldFamily, toNat_wordNNN]; omega

@[simp] theorem fieldNNN_wordNNN (f : Nibble) (a : Addr) : fieldNNN (wordNNN f a) = a := by
  apply BitVec.eq_of_toNat_eq; rw [toNat_fieldNNN, toNat_wordNNN]; omega

@[simp] theorem fieldFamily_wordXKK (f : Nibble) (x : RegIdx) (kk : Byte) : fieldFamily (wordXKK f x kk) = f := by
  apply BitVec.eq_of_toNat_eq; rw [toNat_fieldFamily, toNat_wordXKK]; omega

@[simp] theorem fieldX_wordXKK (f : Nibble) (x : RegIdx) (kk : Byte) : fieldX (wordXKK f x kk) = x := by
  apply Fin.ext; rw [val_fieldX, toNat_wordXKK]; omega

@[simp] theorem fieldKK_wordXKK (f : Nibble) (x : RegIdx) (kk : Byte) : fieldKK (wordXKK f x kk) = kk := by
  apply BitVec.eq_of_toNat_eq; rw [toNat_fieldKK, toNat_wordXKK]; omega

@[simp] theorem fieldFamily_wordXYN (f : Nibble) (x y : RegIdx) (n : Nibble) : fieldFamily (wordXYN f x y n) = f := by
  apply BitVec.eq_of_toNat_eq; rw [toNat_fieldFamily, toNat_wordXYN]; omega

@[simp] theorem fieldX_wordXYN (f : Nibble) (x y : RegIdx) (n : Nibble) : fieldX (wordXYN f x y n) = x := by
  apply Fin.ext; rw [val_fieldX, toNat_wordXYN]; omega

@[simp] theorem fieldY_wordXYN (f : Nibble) (x y : RegIdx) (n : Nibble) : fieldY (wordXYN f x y n) = y := by
  apply Fin.ext; rw [val_fieldY, toNat_wordXYN]; omega

@[simp] theorem fieldN_wordXYN (f : Nibble) (x y : RegIdx) (n : Nibble) : fieldN (wordXYN f x y n) = n := by
  apply BitVec.eq_of_toNat_eq; rw [toNat_fieldN, toNat_wordXYN]; omega

/-! ### A word rebuilt from its fields -/

theorem wordNNN_fields (op : Word) : wordNNN (fieldFamily op) (fieldNNN op) = op := by
  apply BitVec.eq_of_toNat_eq; rw [toNat_wordNNN, toNat_fieldFamily, toNat_fieldNNN]; omega

theorem wordXKK_fields (op : Word) : wordXKK (fieldFamily op) (fieldX op) (fieldKK op) = op := by
  apply BitVec.eq_of_toNat_eq; rw [toNat_wordXKK, toNat_fieldFamily, val_fieldX, toNat_fieldKK]; omega

theorem wordXYN_fields (op : Word) : wordXYN (fieldFamily op) (fieldX op) (fieldY op) (fieldN op) = op := by
  apply BitVec.eq_of_toNat_eq; rw [toNat_wordXYN, toNat_fieldFamily, val_fieldX, val_fieldY, toNat_fieldN]; omega

@[simp] theorem wordOfBytes_bytesOfWord (op : Word) : wordOfBytes (bytesOfWord op).1 (bytesOfWord op).2 = op := by
  apply BitVec.eq_of_toNat_eq
  rw [toNat_wordOfBytes]
  simp [bytesOfWord, Nat.shiftRight_eq_div_pow]
  omega

/-! ### The two family-0 words -/

theorem fieldFamily_eq_of {op : Word} {f : Nibble} {k : Nat} (hk : f.toNat = k) (h : (fieldFamily op).toNat = k) :
    fieldFamily op = f := BitVec.eq_of_toNat_eq (h.trans hk.symm)

theorem word_of_family0 {op : Word} (h : (fieldFamily op).toNat = 0) : op.toNat = (fieldNNN op).toNat := by
  rw [toNat_fieldFamily] at h; rw [toNat_fieldNNN]; omega

end Sys2Proof
end

