-- ==== Sys2Proof/Laws/Decoding.lean ====
section
/-! SUPPORT. What each family of the decoder gives, and on which words it gives nothing. -/

namespace Sys2Proof

/-- A decoded instruction `i` is one of this machine and its word is `op`. -/
def IsWordOf (c : Config) (i : Instr) (op : Word) : Prop := i.wf = true ∧ i.available c = true ∧ encode i = op

theorem nibble_of_toNat {b : Nibble} {k : Nat} (h : b.toNat = k) : b = BitVec.ofNat 4 k := by
  apply BitVec.eq_of_toNat_eq
  have := b.isLt
  simp only [BitVec.toNat_ofNat]
  omega

theorem byte_of_toNat {b : Byte} {k : Nat} (h : b.toNat = k) : b = BitVec.ofNat 8 k := by
  apply BitVec.eq_of_toNat_eq
  have := b.isLt
  simp only [BitVec.toNat_ofNat]
  omega

theorem decodeFamily0_ok {c : Config} {nnn : Addr} {i : Instr} (h : decodeFamily0 c nnn = .ok i) :
    IsWordOf c i (wordNNN 0x0#4 nnn) := by
  unfold decodeFamily0 at h
  by_cases h1 : nnn = 0x0E0#12
  · rw [if_pos h1] at h; cases h; subst h1; exact ⟨rfl, rfl, rfl⟩
  · by_cases h2 : nnn = 0x0EE#12
    · rw [if_neg h1, if_pos h2] at h; cases h; subst h2; exact ⟨rfl, rfl, rfl⟩
    · rw [if_neg h1, if_neg h2] at h
      cases hp : c.sysPolicy with
      | invalid => rw [hp] at h; cases h
      | nop => rw [hp] at h; cases h; exact ⟨by simp [Instr.wf, h1, h2], by simp [Instr.available, hp], rfl⟩

theorem decodeFamily8_ok {c : Config} {x y : RegIdx} {n : Nibble} {i : Instr} (h : decodeFamily8 x y n = .ok i) :
    IsWordOf c i (wordXYN 0x8#4 x y n) := by
  unfold decodeFamily8 at h
  split at h <;> first
    | cases h; done
    | (cases h; rename_i hn; rw [nibble_of_toNat hn]; exact ⟨rfl, rfl, rfl⟩)

theorem decodeFamily8_error {x y : RegIdx} {n : Nibble} :
    decodeFamily8 x y n = .error .subOpcode8 ↔ 0x8 ≤ n.toNat ∧ n.toNat ≠ 0xE := by
  have hn := n.isLt
  unfold decodeFamily8
  generalize n.toNat = k at hn
  interval_cases k <;> simp

theorem decodeFamilyE_ok {c : Config} {x : RegIdx} {kk : Byte} {i : Instr} (h : decodeFamilyE x kk = .ok i) :
    IsWordOf c i (wordXKK 0xE#4 x kk) := by
  unfold decodeFamilyE at h
  split at h <;> first
    | cases h; done
    | (cases h; rename_i hk; rw [byte_of_toNat hk]; exact ⟨rfl, rfl, rfl⟩)

theorem decodeFamilyE_error {x : RegIdx} {kk : Byte} :
    decodeFamilyE x kk = .error .subOpcodeE ↔ kk.toNat ≠ 0x9E ∧ kk.toNat ≠ 0xA1 := by
  unfold decodeFamilyE
  split <;> simp_all

theorem decodeFamilyF_ok {c : Config} {x : RegIdx} {kk : Byte} {i : Instr} (h : decodeFamilyF x kk = .ok i) :
    IsWordOf c i (wordXKK 0xF#4 x kk) := by
  unfold decodeFamilyF at h
  split at h <;> first
    | cases h; done
    | (cases h; rename_i hk; rw [byte_of_toNat hk]; exact ⟨rfl, rfl, rfl⟩)

theorem decodeFamilyF_error {x : RegIdx} {kk : Byte} : decodeFamilyF x kk = .error .subOpcodeF ↔
    kk.toNat ∉ [0x07, 0x0A, 0x15, 0x18, 0x1E, 0x29, 0x33, 0x55, 0x65] := by
  unfold decodeFamilyF
  split <;> simp_all

/-- A word by the family of its top nibble: the decoder's sixteen ways, each with its family as a nibble. -/
theorem family_cases (op : Word) : ∃ k, k < 16 ∧ fieldFamily op = BitVec.ofNat 4 k ∧ op.toNat / 4096 = k := by
  refine ⟨(fieldFamily op).toNat, (fieldFamily op).isLt, nibble_of_toNat rfl, ?_⟩
  rw [toNat_fieldFamily]; omega

end Sys2Proof
end

