-- ==== Sys2Proof/Laws/State.lean ====
section
/-! SUPPORT. One lemma per field per update of State, each true by rfl, so that no later proof unfolds a record update; and
what reading a register or a byte gives after each update. -/

namespace Sys2Proof.Machine

/-! ### State.setReg -/

@[simp] theorem State.setReg_v (s : State) (x : RegIdx) (b : Byte) : (s.setReg x b).v = s.v.set x.val b x.isLt := rfl
@[simp] theorem State.setReg_i (s : State) (x : RegIdx) (b : Byte) : (s.setReg x b).i = s.i := rfl
@[simp] theorem State.setReg_pc (s : State) (x : RegIdx) (b : Byte) : (s.setReg x b).pc = s.pc := rfl
@[simp] theorem State.setReg_stack (s : State) (x : RegIdx) (b : Byte) : (s.setReg x b).stack = s.stack := rfl
@[simp] theorem State.setReg_sp (s : State) (x : RegIdx) (b : Byte) : (s.setReg x b).sp = s.sp := rfl
@[simp] theorem State.setReg_dt (s : State) (x : RegIdx) (b : Byte) : (s.setReg x b).dt = s.dt := rfl
@[simp] theorem State.setReg_st (s : State) (x : RegIdx) (b : Byte) : (s.setReg x b).st = s.st := rfl
@[simp] theorem State.setReg_fb (s : State) (x : RegIdx) (b : Byte) : (s.setReg x b).fb = s.fb := rfl
@[simp] theorem State.setReg_mem (s : State) (x : RegIdx) (b : Byte) : (s.setReg x b).mem = s.mem := rfl
@[simp] theorem State.setReg_run (s : State) (x : RegIdx) (b : Byte) : (s.setReg x b).run = s.run := rfl
@[simp] theorem State.setReg_status (s : State) (x : RegIdx) (b : Byte) : (s.setReg x b).status = s.status := rfl
@[simp] theorem State.setReg_input (s : State) (x : RegIdx) (b : Byte) : (s.setReg x b).input = s.input := rfl
@[simp] theorem State.setReg_inputs (s : State) (x : RegIdx) (b : Byte) : (s.setReg x b).inputs = s.inputs := rfl
@[simp] theorem State.setReg_ticks (s : State) (x : RegIdx) (b : Byte) : (s.setReg x b).ticks = s.ticks := rfl
@[simp] theorem State.setReg_cfg (s : State) (x : RegIdx) (b : Byte) : (s.setReg x b).cfg = s.cfg := rfl
@[simp] theorem State.setReg_byteAt (s : State) (x : RegIdx) (b : Byte) (p : Nat) : (s.setReg x b).byteAt p = s.byteAt p := rfl

/-! ### State.setRegs -/

@[simp] theorem State.setRegs_v (s : State) (w : Vector Byte 16) : (s.setRegs w).v = w := rfl
@[simp] theorem State.setRegs_i (s : State) (w : Vector Byte 16) : (s.setRegs w).i = s.i := rfl
@[simp] theorem State.setRegs_pc (s : State) (w : Vector Byte 16) : (s.setRegs w).pc = s.pc := rfl
@[simp] theorem State.setRegs_stack (s : State) (w : Vector Byte 16) : (s.setRegs w).stack = s.stack := rfl
@[simp] theorem State.setRegs_sp (s : State) (w : Vector Byte 16) : (s.setRegs w).sp = s.sp := rfl
@[simp] theorem State.setRegs_dt (s : State) (w : Vector Byte 16) : (s.setRegs w).dt = s.dt := rfl
@[simp] theorem State.setRegs_st (s : State) (w : Vector Byte 16) : (s.setRegs w).st = s.st := rfl
@[simp] theorem State.setRegs_fb (s : State) (w : Vector Byte 16) : (s.setRegs w).fb = s.fb := rfl
@[simp] theorem State.setRegs_mem (s : State) (w : Vector Byte 16) : (s.setRegs w).mem = s.mem := rfl
@[simp] theorem State.setRegs_run (s : State) (w : Vector Byte 16) : (s.setRegs w).run = s.run := rfl
@[simp] theorem State.setRegs_status (s : State) (w : Vector Byte 16) : (s.setRegs w).status = s.status := rfl
@[simp] theorem State.setRegs_input (s : State) (w : Vector Byte 16) : (s.setRegs w).input = s.input := rfl
@[simp] theorem State.setRegs_inputs (s : State) (w : Vector Byte 16) : (s.setRegs w).inputs = s.inputs := rfl
@[simp] theorem State.setRegs_ticks (s : State) (w : Vector Byte 16) : (s.setRegs w).ticks = s.ticks := rfl
@[simp] theorem State.setRegs_cfg (s : State) (w : Vector Byte 16) : (s.setRegs w).cfg = s.cfg := rfl
@[simp] theorem State.setRegs_byteAt (s : State) (w : Vector Byte 16) (p : Nat) : (s.setRegs w).byteAt p = s.byteAt p := rfl

/-! ### State.setI -/

@[simp] theorem State.setI_v (s : State) (w : Word) : (s.setI w).v = s.v := rfl
@[simp] theorem State.setI_i (s : State) (w : Word) : (s.setI w).i = w := rfl
@[simp] theorem State.setI_pc (s : State) (w : Word) : (s.setI w).pc = s.pc := rfl
@[simp] theorem State.setI_stack (s : State) (w : Word) : (s.setI w).stack = s.stack := rfl
@[simp] theorem State.setI_sp (s : State) (w : Word) : (s.setI w).sp = s.sp := rfl
@[simp] theorem State.setI_dt (s : State) (w : Word) : (s.setI w).dt = s.dt := rfl
@[simp] theorem State.setI_st (s : State) (w : Word) : (s.setI w).st = s.st := rfl
@[simp] theorem State.setI_fb (s : State) (w : Word) : (s.setI w).fb = s.fb := rfl
@[simp] theorem State.setI_mem (s : State) (w : Word) : (s.setI w).mem = s.mem := rfl
@[simp] theorem State.setI_run (s : State) (w : Word) : (s.setI w).run = s.run := rfl
@[simp] theorem State.setI_status (s : State) (w : Word) : (s.setI w).status = s.status := rfl
@[simp] theorem State.setI_input (s : State) (w : Word) : (s.setI w).input = s.input := rfl
@[simp] theorem State.setI_inputs (s : State) (w : Word) : (s.setI w).inputs = s.inputs := rfl
@[simp] theorem State.setI_ticks (s : State) (w : Word) : (s.setI w).ticks = s.ticks := rfl
@[simp] theorem State.setI_cfg (s : State) (w : Word) : (s.setI w).cfg = s.cfg := rfl
@[simp] theorem State.setI_reg (s : State) (w : Word) (r : RegIdx) : (s.setI w).reg r = s.reg r := rfl
@[simp] theorem State.setI_byteAt (s : State) (w : Word) (p : Nat) : (s.setI w).byteAt p = s.byteAt p := rfl

/-! ### State.setPc -/

@[simp] theorem State.setPc_v (s : State) (w : Word) : (s.setPc w).v = s.v := rfl
@[simp] theorem State.setPc_i (s : State) (w : Word) : (s.setPc w).i = s.i := rfl
@[simp] theorem State.setPc_pc (s : State) (w : Word) : (s.setPc w).pc = w := rfl
@[simp] theorem State.setPc_stack (s : State) (w : Word) : (s.setPc w).stack = s.stack := rfl
@[simp] theorem State.setPc_sp (s : State) (w : Word) : (s.setPc w).sp = s.sp := rfl
@[simp] theorem State.setPc_dt (s : State) (w : Word) : (s.setPc w).dt = s.dt := rfl
@[simp] theorem State.setPc_st (s : State) (w : Word) : (s.setPc w).st = s.st := rfl
@[simp] theorem State.setPc_fb (s : State) (w : Word) : (s.setPc w).fb = s.fb := rfl
@[simp] theorem State.setPc_mem (s : State) (w : Word) : (s.setPc w).mem = s.mem := rfl
@[simp] theorem State.setPc_run (s : State) (w : Word) : (s.setPc w).run = s.run := rfl
@[simp] theorem State.setPc_status (s : State) (w : Word) : (s.setPc w).status = s.status := rfl
@[simp] theorem State.setPc_input (s : State) (w : Word) : (s.setPc w).input = s.input := rfl
@[simp] theorem State.setPc_inputs (s : State) (w : Word) : (s.setPc w).inputs = s.inputs := rfl
@[simp] theorem State.setPc_ticks (s : State) (w : Word) : (s.setPc w).ticks = s.ticks := rfl
@[simp] theorem State.setPc_cfg (s : State) (w : Word) : (s.setPc w).cfg = s.cfg := rfl
@[simp] theorem State.setPc_reg (s : State) (w : Word) (r : RegIdx) : (s.setPc w).reg r = s.reg r := rfl
@[simp] theorem State.setPc_byteAt (s : State) (w : Word) (p : Nat) : (s.setPc w).byteAt p = s.byteAt p := rfl

/-! ### State.setDt -/

@[simp] theorem State.setDt_v (s : State) (b : Byte) : (s.setDt b).v = s.v := rfl
@[simp] theorem State.setDt_i (s : State) (b : Byte) : (s.setDt b).i = s.i := rfl
@[simp] theorem State.setDt_pc (s : State) (b : Byte) : (s.setDt b).pc = s.pc := rfl
@[simp] theorem State.setDt_stack (s : State) (b : Byte) : (s.setDt b).stack = s.stack := rfl
@[simp] theorem State.setDt_sp (s : State) (b : Byte) : (s.setDt b).sp = s.sp := rfl
@[simp] theorem State.setDt_dt (s : State) (b : Byte) : (s.setDt b).dt = b := rfl
@[simp] theorem State.setDt_st (s : State) (b : Byte) : (s.setDt b).st = s.st := rfl
@[simp] theorem State.setDt_fb (s : State) (b : Byte) : (s.setDt b).fb = s.fb := rfl
@[simp] theorem State.setDt_mem (s : State) (b : Byte) : (s.setDt b).mem = s.mem := rfl
@[simp] theorem State.setDt_run (s : State) (b : Byte) : (s.setDt b).run = s.run := rfl
@[simp] theorem State.setDt_status (s : State) (b : Byte) : (s.setDt b).status = s.status := rfl
@[simp] theorem State.setDt_input (s : State) (b : Byte) : (s.setDt b).input = s.input := rfl
@[simp] theorem State.setDt_inputs (s : State) (b : Byte) : (s.setDt b).inputs = s.inputs := rfl
@[simp] theorem State.setDt_ticks (s : State) (b : Byte) : (s.setDt b).ticks = s.ticks := rfl
@[simp] theorem State.setDt_cfg (s : State) (b : Byte) : (s.setDt b).cfg = s.cfg := rfl
@[simp] theorem State.setDt_reg (s : State) (b : Byte) (r : RegIdx) : (s.setDt b).reg r = s.reg r := rfl
@[simp] theorem State.setDt_byteAt (s : State) (b : Byte) (p : Nat) : (s.setDt b).byteAt p = s.byteAt p := rfl

/-! ### State.setSt -/

@[simp] theorem State.setSt_v (s : State) (b : Byte) : (s.setSt b).v = s.v := rfl
@[simp] theorem State.setSt_i (s : State) (b : Byte) : (s.setSt b).i = s.i := rfl
@[simp] theorem State.setSt_pc (s : State) (b : Byte) : (s.setSt b).pc = s.pc := rfl
@[simp] theorem State.setSt_stack (s : State) (b : Byte) : (s.setSt b).stack = s.stack := rfl
@[simp] theorem State.setSt_sp (s : State) (b : Byte) : (s.setSt b).sp = s.sp := rfl
@[simp] theorem State.setSt_dt (s : State) (b : Byte) : (s.setSt b).dt = s.dt := rfl
@[simp] theorem State.setSt_st (s : State) (b : Byte) : (s.setSt b).st = b := rfl
@[simp] theorem State.setSt_fb (s : State) (b : Byte) : (s.setSt b).fb = s.fb := rfl
@[simp] theorem State.setSt_mem (s : State) (b : Byte) : (s.setSt b).mem = s.mem := rfl
@[simp] theorem State.setSt_run (s : State) (b : Byte) : (s.setSt b).run = s.run := rfl
@[simp] theorem State.setSt_status (s : State) (b : Byte) : (s.setSt b).status = s.status := rfl
@[simp] theorem State.setSt_input (s : State) (b : Byte) : (s.setSt b).input = s.input := rfl
@[simp] theorem State.setSt_inputs (s : State) (b : Byte) : (s.setSt b).inputs = s.inputs := rfl
@[simp] theorem State.setSt_ticks (s : State) (b : Byte) : (s.setSt b).ticks = s.ticks := rfl
@[simp] theorem State.setSt_cfg (s : State) (b : Byte) : (s.setSt b).cfg = s.cfg := rfl
@[simp] theorem State.setSt_reg (s : State) (b : Byte) (r : RegIdx) : (s.setSt b).reg r = s.reg r := rfl
@[simp] theorem State.setSt_byteAt (s : State) (b : Byte) (p : Nat) : (s.setSt b).byteAt p = s.byteAt p := rfl

/-! ### State.setFb -/

@[simp] theorem State.setFb_v (s : State) (f : FrameBuffer) : (s.setFb f).v = s.v := rfl
@[simp] theorem State.setFb_i (s : State) (f : FrameBuffer) : (s.setFb f).i = s.i := rfl
@[simp] theorem State.setFb_pc (s : State) (f : FrameBuffer) : (s.setFb f).pc = s.pc := rfl
@[simp] theorem State.setFb_stack (s : State) (f : FrameBuffer) : (s.setFb f).stack = s.stack := rfl
@[simp] theorem State.setFb_sp (s : State) (f : FrameBuffer) : (s.setFb f).sp = s.sp := rfl
@[simp] theorem State.setFb_dt (s : State) (f : FrameBuffer) : (s.setFb f).dt = s.dt := rfl
@[simp] theorem State.setFb_st (s : State) (f : FrameBuffer) : (s.setFb f).st = s.st := rfl
@[simp] theorem State.setFb_fb (s : State) (f : FrameBuffer) : (s.setFb f).fb = f := rfl
@[simp] theorem State.setFb_mem (s : State) (f : FrameBuffer) : (s.setFb f).mem = s.mem := rfl
@[simp] theorem State.setFb_run (s : State) (f : FrameBuffer) : (s.setFb f).run = s.run := rfl
@[simp] theorem State.setFb_status (s : State) (f : FrameBuffer) : (s.setFb f).status = s.status := rfl
@[simp] theorem State.setFb_input (s : State) (f : FrameBuffer) : (s.setFb f).input = s.input := rfl
@[simp] theorem State.setFb_inputs (s : State) (f : FrameBuffer) : (s.setFb f).inputs = s.inputs := rfl
@[simp] theorem State.setFb_ticks (s : State) (f : FrameBuffer) : (s.setFb f).ticks = s.ticks := rfl
@[simp] theorem State.setFb_cfg (s : State) (f : FrameBuffer) : (s.setFb f).cfg = s.cfg := rfl
@[simp] theorem State.setFb_reg (s : State) (f : FrameBuffer) (r : RegIdx) : (s.setFb f).reg r = s.reg r := rfl
@[simp] theorem State.setFb_byteAt (s : State) (f : FrameBuffer) (p : Nat) : (s.setFb f).byteAt p = s.byteAt p := rfl

/-! ### State.writeBytes -/

@[simp] theorem State.writeBytes_v (s : State) (a : Nat) (l : List Byte) : (s.writeBytes a l).v = s.v := rfl
@[simp] theorem State.writeBytes_i (s : State) (a : Nat) (l : List Byte) : (s.writeBytes a l).i = s.i := rfl
@[simp] theorem State.writeBytes_pc (s : State) (a : Nat) (l : List Byte) : (s.writeBytes a l).pc = s.pc := rfl
@[simp] theorem State.writeBytes_stack (s : State) (a : Nat) (l : List Byte) : (s.writeBytes a l).stack = s.stack := rfl
@[simp] theorem State.writeBytes_sp (s : State) (a : Nat) (l : List Byte) : (s.writeBytes a l).sp = s.sp := rfl
@[simp] theorem State.writeBytes_dt (s : State) (a : Nat) (l : List Byte) : (s.writeBytes a l).dt = s.dt := rfl
@[simp] theorem State.writeBytes_st (s : State) (a : Nat) (l : List Byte) : (s.writeBytes a l).st = s.st := rfl
@[simp] theorem State.writeBytes_fb (s : State) (a : Nat) (l : List Byte) : (s.writeBytes a l).fb = s.fb := rfl
@[simp] theorem State.writeBytes_mem (s : State) (a : Nat) (l : List Byte) : (s.writeBytes a l).mem = Memory.writeBytes s.cfg s.mem a l := rfl
@[simp] theorem State.writeBytes_run (s : State) (a : Nat) (l : List Byte) : (s.writeBytes a l).run = s.run := rfl
@[simp] theorem State.writeBytes_status (s : State) (a : Nat) (l : List Byte) : (s.writeBytes a l).status = s.status := rfl
@[simp] theorem State.writeBytes_input (s : State) (a : Nat) (l : List Byte) : (s.writeBytes a l).input = s.input := rfl
@[simp] theorem State.writeBytes_inputs (s : State) (a : Nat) (l : List Byte) : (s.writeBytes a l).inputs = s.inputs := rfl
@[simp] theorem State.writeBytes_ticks (s : State) (a : Nat) (l : List Byte) : (s.writeBytes a l).ticks = s.ticks := rfl
@[simp] theorem State.writeBytes_cfg (s : State) (a : Nat) (l : List Byte) : (s.writeBytes a l).cfg = s.cfg := rfl
@[simp] theorem State.writeBytes_reg (s : State) (a : Nat) (l : List Byte) (r : RegIdx) : (s.writeBytes a l).reg r = s.reg r := rfl

/-! ### State.setStatus -/

@[simp] theorem State.setStatus_v (s : State) (q : Status) : (s.setStatus q).v = s.v := rfl
@[simp] theorem State.setStatus_i (s : State) (q : Status) : (s.setStatus q).i = s.i := rfl
@[simp] theorem State.setStatus_pc (s : State) (q : Status) : (s.setStatus q).pc = s.pc := rfl
@[simp] theorem State.setStatus_stack (s : State) (q : Status) : (s.setStatus q).stack = s.stack := rfl
@[simp] theorem State.setStatus_sp (s : State) (q : Status) : (s.setStatus q).sp = s.sp := rfl
@[simp] theorem State.setStatus_dt (s : State) (q : Status) : (s.setStatus q).dt = s.dt := rfl
@[simp] theorem State.setStatus_st (s : State) (q : Status) : (s.setStatus q).st = s.st := rfl
@[simp] theorem State.setStatus_fb (s : State) (q : Status) : (s.setStatus q).fb = s.fb := rfl
@[simp] theorem State.setStatus_mem (s : State) (q : Status) : (s.setStatus q).mem = s.mem := rfl
@[simp] theorem State.setStatus_run (s : State) (q : Status) : (s.setStatus q).run = s.run := rfl
@[simp] theorem State.setStatus_status (s : State) (q : Status) : (s.setStatus q).status = some q := rfl
@[simp] theorem State.setStatus_input (s : State) (q : Status) : (s.setStatus q).input = s.input := rfl
@[simp] theorem State.setStatus_inputs (s : State) (q : Status) : (s.setStatus q).inputs = s.inputs := rfl
@[simp] theorem State.setStatus_ticks (s : State) (q : Status) : (s.setStatus q).ticks = s.ticks := rfl
@[simp] theorem State.setStatus_cfg (s : State) (q : Status) : (s.setStatus q).cfg = s.cfg := rfl
@[simp] theorem State.setStatus_reg (s : State) (q : Status) (r : RegIdx) : (s.setStatus q).reg r = s.reg r := rfl
@[simp] theorem State.setStatus_byteAt (s : State) (q : Status) (p : Nat) : (s.setStatus q).byteAt p = s.byteAt p := rfl

/-! ### timerPhase -/

@[simp] theorem timerPhase_v (s : State) : (timerPhase s).v = s.v := rfl
@[simp] theorem timerPhase_i (s : State) : (timerPhase s).i = s.i := rfl
@[simp] theorem timerPhase_pc (s : State) : (timerPhase s).pc = s.pc := rfl
@[simp] theorem timerPhase_stack (s : State) : (timerPhase s).stack = s.stack := rfl
@[simp] theorem timerPhase_sp (s : State) : (timerPhase s).sp = s.sp := rfl
@[simp] theorem timerPhase_dt (s : State) : (timerPhase s).dt = countDown s.dt := rfl
@[simp] theorem timerPhase_st (s : State) : (timerPhase s).st = countDown s.st := rfl
@[simp] theorem timerPhase_fb (s : State) : (timerPhase s).fb = s.fb := rfl
@[simp] theorem timerPhase_mem (s : State) : (timerPhase s).mem = s.mem := rfl
@[simp] theorem timerPhase_run (s : State) : (timerPhase s).run = s.run := rfl
@[simp] theorem timerPhase_status (s : State) : (timerPhase s).status = s.status := rfl
@[simp] theorem timerPhase_input (s : State) : (timerPhase s).input = s.input := rfl
@[simp] theorem timerPhase_inputs (s : State) : (timerPhase s).inputs = s.inputs := rfl
@[simp] theorem timerPhase_ticks (s : State) : (timerPhase s).ticks = s.ticks := rfl
@[simp] theorem timerPhase_cfg (s : State) : (timerPhase s).cfg = s.cfg := rfl
@[simp] theorem timerPhase_reg (s : State) (r : RegIdx) : (timerPhase s).reg r = s.reg r := rfl
@[simp] theorem timerPhase_byteAt (s : State) (p : Nat) : (timerPhase s).byteAt p = s.byteAt p := rfl

/-! ### takeInput -/

@[simp] theorem takeInput_v (s : State) : (takeInput s).v = s.v := rfl
@[simp] theorem takeInput_i (s : State) : (takeInput s).i = s.i := rfl
@[simp] theorem takeInput_pc (s : State) : (takeInput s).pc = s.pc := rfl
@[simp] theorem takeInput_stack (s : State) : (takeInput s).stack = s.stack := rfl
@[simp] theorem takeInput_sp (s : State) : (takeInput s).sp = s.sp := rfl
@[simp] theorem takeInput_dt (s : State) : (takeInput s).dt = s.dt := rfl
@[simp] theorem takeInput_st (s : State) : (takeInput s).st = s.st := rfl
@[simp] theorem takeInput_fb (s : State) : (takeInput s).fb = s.fb := rfl
@[simp] theorem takeInput_mem (s : State) : (takeInput s).mem = s.mem := rfl
@[simp] theorem takeInput_run (s : State) : (takeInput s).run = s.run := rfl
@[simp] theorem takeInput_status (s : State) : (takeInput s).status = s.status := rfl
@[simp] theorem takeInput_input (s : State) : (takeInput s).input = s.nextInput := rfl
@[simp] theorem takeInput_inputs (s : State) : (takeInput s).inputs = s.inputs.tail := rfl
@[simp] theorem takeInput_ticks (s : State) : (takeInput s).ticks = s.ticks + 1 := rfl
@[simp] theorem takeInput_cfg (s : State) : (takeInput s).cfg = s.cfg := rfl
@[simp] theorem takeInput_reg (s : State) (r : RegIdx) : (takeInput s).reg r = s.reg r := rfl
@[simp] theorem takeInput_byteAt (s : State) (p : Nat) : (takeInput s).byteAt p = s.byteAt p := rfl

/-! ### beginTick -/

@[simp] theorem beginTick_v (s : State) : (beginTick s).v = s.v := rfl
@[simp] theorem beginTick_i (s : State) : (beginTick s).i = s.i := rfl
@[simp] theorem beginTick_pc (s : State) : (beginTick s).pc = s.pc := rfl
@[simp] theorem beginTick_stack (s : State) : (beginTick s).stack = s.stack := rfl
@[simp] theorem beginTick_sp (s : State) : (beginTick s).sp = s.sp := rfl
@[simp] theorem beginTick_dt (s : State) : (beginTick s).dt = countDown s.dt := rfl
@[simp] theorem beginTick_st (s : State) : (beginTick s).st = countDown s.st := rfl
@[simp] theorem beginTick_fb (s : State) : (beginTick s).fb = s.fb := rfl
@[simp] theorem beginTick_mem (s : State) : (beginTick s).mem = s.mem := rfl
@[simp] theorem beginTick_run (s : State) : (beginTick s).run = s.run := rfl
@[simp] theorem beginTick_status (s : State) : (beginTick s).status = s.status := rfl
@[simp] theorem beginTick_input (s : State) : (beginTick s).input = s.nextInput := rfl
@[simp] theorem beginTick_inputs (s : State) : (beginTick s).inputs = s.inputs.tail := rfl
@[simp] theorem beginTick_ticks (s : State) : (beginTick s).ticks = s.ticks + 1 := rfl
@[simp] theorem beginTick_cfg (s : State) : (beginTick s).cfg = s.cfg := rfl
@[simp] theorem beginTick_reg (s : State) (r : RegIdx) : (beginTick s).reg r = s.reg r := rfl
@[simp] theorem beginTick_byteAt (s : State) (p : Nat) : (beginTick s).byteAt p = s.byteAt p := rfl

/-! ### preIncrement -/

@[simp] theorem preIncrement_v (s : State) : (preIncrement s).v = s.v := rfl
@[simp] theorem preIncrement_i (s : State) : (preIncrement s).i = s.i := rfl
@[simp] theorem preIncrement_pc (s : State) : (preIncrement s).pc = s.pc + 2#16 := rfl
@[simp] theorem preIncrement_stack (s : State) : (preIncrement s).stack = s.stack := rfl
@[simp] theorem preIncrement_sp (s : State) : (preIncrement s).sp = s.sp := rfl
@[simp] theorem preIncrement_dt (s : State) : (preIncrement s).dt = s.dt := rfl
@[simp] theorem preIncrement_st (s : State) : (preIncrement s).st = s.st := rfl
@[simp] theorem preIncrement_fb (s : State) : (preIncrement s).fb = s.fb := rfl
@[simp] theorem preIncrement_mem (s : State) : (preIncrement s).mem = s.mem := rfl
@[simp] theorem preIncrement_run (s : State) : (preIncrement s).run = s.run := rfl
@[simp] theorem preIncrement_status (s : State) : (preIncrement s).status = s.status := rfl
@[simp] theorem preIncrement_input (s : State) : (preIncrement s).input = s.input := rfl
@[simp] theorem preIncrement_inputs (s : State) : (preIncrement s).inputs = s.inputs := rfl
@[simp] theorem preIncrement_ticks (s : State) : (preIncrement s).ticks = s.ticks := rfl
@[simp] theorem preIncrement_cfg (s : State) : (preIncrement s).cfg = s.cfg := rfl
@[simp] theorem preIncrement_reg (s : State) (r : RegIdx) : (preIncrement s).reg r = s.reg r := rfl
@[simp] theorem preIncrement_byteAt (s : State) (p : Nat) : (preIncrement s).byteAt p = s.byteAt p := rfl

/-! ### skip -/

@[simp] theorem skip_v (s : State) : (skip s).v = s.v := rfl
@[simp] theorem skip_i (s : State) : (skip s).i = s.i := rfl
@[simp] theorem skip_pc (s : State) : (skip s).pc = s.pc + 2#16 := rfl
@[simp] theorem skip_stack (s : State) : (skip s).stack = s.stack := rfl
@[simp] theorem skip_sp (s : State) : (skip s).sp = s.sp := rfl
@[simp] theorem skip_dt (s : State) : (skip s).dt = s.dt := rfl
@[simp] theorem skip_st (s : State) : (skip s).st = s.st := rfl
@[simp] theorem skip_fb (s : State) : (skip s).fb = s.fb := rfl
@[simp] theorem skip_mem (s : State) : (skip s).mem = s.mem := rfl
@[simp] theorem skip_run (s : State) : (skip s).run = s.run := rfl
@[simp] theorem skip_status (s : State) : (skip s).status = s.status := rfl
@[simp] theorem skip_input (s : State) : (skip s).input = s.input := rfl
@[simp] theorem skip_inputs (s : State) : (skip s).inputs = s.inputs := rfl
@[simp] theorem skip_ticks (s : State) : (skip s).ticks = s.ticks := rfl
@[simp] theorem skip_cfg (s : State) : (skip s).cfg = s.cfg := rfl
@[simp] theorem skip_reg (s : State) (r : RegIdx) : (skip s).reg r = s.reg r := rfl
@[simp] theorem skip_byteAt (s : State) (p : Nat) : (skip s).byteAt p = s.byteAt p := rfl

/-! ### enterFault -/

@[simp] theorem enterFault_v (k : FaultKind) (a : Word) (o : Option Word) (s : State) : (enterFault k a o s).v = s.v := rfl
@[simp] theorem enterFault_i (k : FaultKind) (a : Word) (o : Option Word) (s : State) : (enterFault k a o s).i = s.i := rfl
@[simp] theorem enterFault_pc (k : FaultKind) (a : Word) (o : Option Word) (s : State) : (enterFault k a o s).pc = a := rfl
@[simp] theorem enterFault_stack (k : FaultKind) (a : Word) (o : Option Word) (s : State) : (enterFault k a o s).stack = s.stack := rfl
@[simp] theorem enterFault_sp (k : FaultKind) (a : Word) (o : Option Word) (s : State) : (enterFault k a o s).sp = s.sp := rfl
@[simp] theorem enterFault_dt (k : FaultKind) (a : Word) (o : Option Word) (s : State) : (enterFault k a o s).dt = s.dt := rfl
@[simp] theorem enterFault_st (k : FaultKind) (a : Word) (o : Option Word) (s : State) : (enterFault k a o s).st = s.st := rfl
@[simp] theorem enterFault_fb (k : FaultKind) (a : Word) (o : Option Word) (s : State) : (enterFault k a o s).fb = s.fb := rfl
@[simp] theorem enterFault_mem (k : FaultKind) (a : Word) (o : Option Word) (s : State) : (enterFault k a o s).mem = s.mem := rfl
@[simp] theorem enterFault_run (k : FaultKind) (a : Word) (o : Option Word) (s : State) : (enterFault k a o s).run = .faulted { kind := k, address := a, opcode := o } := rfl
@[simp] theorem enterFault_status (k : FaultKind) (a : Word) (o : Option Word) (s : State) : (enterFault k a o s).status = some (.fault { kind := k, address := a, opcode := o }) := rfl
@[simp] theorem enterFault_input (k : FaultKind) (a : Word) (o : Option Word) (s : State) : (enterFault k a o s).input = s.input := rfl
@[simp] theorem enterFault_inputs (k : FaultKind) (a : Word) (o : Option Word) (s : State) : (enterFault k a o s).inputs = s.inputs := rfl
@[simp] theorem enterFault_ticks (k : FaultKind) (a : Word) (o : Option Word) (s : State) : (enterFault k a o s).ticks = s.ticks := rfl
@[simp] theorem enterFault_cfg (k : FaultKind) (a : Word) (o : Option Word) (s : State) : (enterFault k a o s).cfg = s.cfg := rfl
@[simp] theorem enterFault_reg (k : FaultKind) (a : Word) (o : Option Word) (s : State) (r : RegIdx) : (enterFault k a o s).reg r = s.reg r := rfl
@[simp] theorem enterFault_byteAt (k : FaultKind) (a : Word) (o : Option Word) (s : State) (p : Nat) : (enterFault k a o s).byteAt p = s.byteAt p := rfl

/-! ### Registers -/

@[simp] theorem reg_setReg_self (s : State) (x : RegIdx) (b : Byte) : (s.setReg x b).reg x = b := by
  simp [State.reg, State.setReg]

theorem reg_setReg_ne (s : State) (x r : RegIdx) (b : Byte) (h : r ≠ x) : (s.setReg x b).reg r = s.reg r := by
  simp only [State.reg, State.setReg]
  exact Vector.getElem_set_ne x.isLt r.isLt (fun e => h (Fin.ext e.symm))

theorem reg_setReg (s : State) (x r : RegIdx) (b : Byte) : (s.setReg x b).reg r = if r = x then b else s.reg r := by
  split
  · rename_i h; subst h; exact reg_setReg_self s r b
  · rename_i h; exact reg_setReg_ne s x r b h

@[simp] theorem reg_setRegs (s : State) (w : Vector Byte 16) (r : RegIdx) : (s.setRegs w).reg r = w[r.val] := rfl

/-! ### Derived operations -/

theorem skipIf_eq (c : Bool) (s : State) : skipIf c s = s.setPc (if c then s.pc + 2#16 else s.pc) := by
  cases c <;> rfl

theorem fetch_eq_of_same (s t : State) (hm : t.mem = s.mem) (hc : t.cfg = s.cfg) (hp : t.pc = s.pc) :
    fetch t = fetch s := by
  unfold fetch State.wordAt State.byteAt
  rw [hm, hc, hp]

@[simp] theorem fetch_beginTick (s : State) : fetch (beginTick s) = fetch s := fetch_eq_of_same _ _ rfl rfl rfl

end Sys2Proof.Machine
end

