-- ==== Sys2Proof/Laws/Memory.lean ====
section
/-! SUPPORT. Memory: a read after a write, the canonical form kept by every operation, and that it makes equal memories equal
lists; the range check and the runs of bytes. -/

namespace Sys2Proof.Machine

variable {c : Config}

/-! ### One cell -/

theorem wfFrom_cons {low a : Nat} {v : Byte} {m : Memory} :
    Memory.wfFrom c low ((a, v) :: m) = true ↔
      low ≤ a ∧ a < c.memSize ∧ v ≠ Memory.resetByte c a ∧ Memory.wfFrom c (a + 1) m = true := by
  simp [Memory.wfFrom, and_assoc]

theorem wfFrom_mono {low low' : Nat} {m : Memory} (hle : low' ≤ low) (h : Memory.wfFrom c low m = true) :
    Memory.wfFrom c low' m = true := by
  cases m with
  | nil => rfl
  | cons p m =>
    obtain ⟨a, v⟩ := p
    rw [wfFrom_cons] at h ⊢
    exact ⟨by omega, h.2⟩

/-- Below the cells that are listed, memory reads as at reset. -/
theorem read_below {low a : Nat} {m : Memory} (h : Memory.wfFrom c low m = true) (ha : a < low) :
    Memory.read c m a = Memory.resetByte c a := by
  induction m generalizing low with
  | nil => rfl
  | cons p m ih =>
    obtain ⟨b, w⟩ := p
    obtain ⟨h1, _, _, h4⟩ := wfFrom_cons.mp h
    rw [Memory.read, if_neg (by omega)]
    exact ih h4 (by omega)

theorem read_put (m : Memory) (a b : Nat) (v : Byte) :
    Memory.read c (Memory.put m a v) b = if b = a then v else Memory.read c m b := by
  induction m with
  | nil => simp [Memory.put, Memory.read]
  | cons p m ih =>
    obtain ⟨k, w⟩ := p
    simp only [Memory.put]
    split
    · simp [Memory.read]
    · split
      · rename_i h; subst h
        by_cases hb : b = a <;> simp [Memory.read, hb]
      · simp only [Memory.read, ih]
        by_cases hb : b = k
        · subst hb; rw [if_pos rfl, if_neg (by omega), if_pos rfl]
        · simp [hb]

theorem read_unlist {low : Nat} {m : Memory} (h : Memory.wfFrom c low m = true) (a b : Nat) :
    Memory.read c (Memory.unlist m a) b = if b = a then Memory.resetByte c a else Memory.read c m b := by
  induction m generalizing low with
  | nil => by_cases hb : b = a <;> simp [Memory.unlist, Memory.read, hb]
  | cons p m ih =>
    obtain ⟨k, w⟩ := p
    obtain ⟨_, _, _, h4⟩ := wfFrom_cons.mp h
    simp only [Memory.unlist]
    split
    · rename_i hk; subst hk
      by_cases hb : b = a
      · subst hb; rw [if_pos rfl]; exact read_below h4 (by omega)
      · simp [Memory.read, hb]
    · simp only [Memory.read, ih h4]
      by_cases hb : b = k
      · subst hb; rw [if_pos rfl, if_neg (by omega), if_pos rfl]
      · simp [hb]

/-- A read after a write: the value at the address written, and every other address as before. -/
theorem read_write {m : Memory} (h : Memory.wf c m = true) (a b : Nat) (v : Byte) :
    Memory.read c (Memory.write c m a v) b = if b = a then v else Memory.read c m b := by
  unfold Memory.write
  split
  · rename_i hv; rw [read_unlist h, ← hv]
  · exact read_put m a b v

/-! ### The canonical form -/

theorem put_wfFrom {low a : Nat} {v : Byte} {m : Memory} (h : Memory.wfFrom c low m = true) (hl : low ≤ a)
    (ha : a < c.memSize) (hv : v ≠ Memory.resetByte c a) : Memory.wfFrom c low (Memory.put m a v) = true := by
  induction m generalizing low with
  | nil => rw [Memory.put, wfFrom_cons]; exact ⟨hl, ha, hv, rfl⟩
  | cons p m ih =>
    obtain ⟨k, w⟩ := p
    obtain ⟨h1, h2, h3, h4⟩ := wfFrom_cons.mp h
    simp only [Memory.put]
    split
    · rw [wfFrom_cons, wfFrom_cons]; exact ⟨hl, ha, hv, by omega, h2, h3, h4⟩
    · split
      · rename_i hk; subst hk; rw [wfFrom_cons]; exact ⟨hl, ha, hv, h4⟩
      · rw [wfFrom_cons]; exact ⟨h1, h2, h3, ih h4 (by omega)⟩

theorem unlist_wfFrom {low : Nat} {m : Memory} (h : Memory.wfFrom c low m = true) (a : Nat) :
    Memory.wfFrom c low (Memory.unlist m a) = true := by
  induction m generalizing low with
  | nil => rfl
  | cons p m ih =>
    obtain ⟨k, w⟩ := p
    obtain ⟨h1, h2, h3, h4⟩ := wfFrom_cons.mp h
    simp only [Memory.unlist]
    split
    · exact wfFrom_mono (by omega) h4
    · rw [wfFrom_cons]; exact ⟨h1, h2, h3, ih h4⟩

/-- A write at a backed address keeps the canonical form. -/
theorem write_wf {m : Memory} (h : Memory.wf c m = true) {a : Nat} (ha : a < c.memSize) (v : Byte) :
    Memory.wf c (Memory.write c m a v) = true := by
  unfold Memory.write
  split
  · exact unlist_wfFrom h a
  · rename_i hv; exact put_wfFrom h (Nat.zero_le a) ha hv

/-- The canonical form makes memories that read alike equal lists. -/
theorem eq_of_read_eq {low : Nat} {m n : Memory} (hm : Memory.wfFrom c low m = true)
    (hn : Memory.wfFrom c low n = true) (h : ∀ a, Memory.read c m a = Memory.read c n a) : m = n := by
  induction m generalizing low n with
  | nil =>
    cases n with
    | nil => rfl
    | cons q n =>
      obtain ⟨k, w⟩ := q
      obtain ⟨_, _, h3, _⟩ := wfFrom_cons.mp hn
      exact absurd (by simpa [Memory.read] using (h k).symm) h3
  | cons p m ih =>
    obtain ⟨a, v⟩ := p
    obtain ⟨h1, h2, h3, h4⟩ := wfFrom_cons.mp hm
    cases n with
    | nil => exact absurd (by simpa [Memory.read] using h a) h3
    | cons q n =>
      obtain ⟨k, w⟩ := q
      obtain ⟨k1, k2, k3, k4⟩ := wfFrom_cons.mp hn
      have hak : a = k := by
        rcases Nat.lt_trichotomy a k with hlt | heq | hgt
        · have := h a
          rw [Memory.read, if_pos rfl, Memory.read, if_neg (by omega), read_below k4 (by omega)] at this
          exact absurd this h3
        · exact heq
        · have := h k
          rw [Memory.read, if_neg (by omega), read_below h4 (by omega), Memory.read, if_pos rfl] at this
          exact absurd this.symm k3
      subst hak
      have hvw : v = w := by simpa [Memory.read] using h a
      subst hvw
      congr 1
      refine ih h4 k4 fun b => ?_
      by_cases hb : b = a
      · subst hb; rw [read_below h4 (by omega), read_below k4 (by omega)]
      · simpa [Memory.read, hb] using h b

/-! ### Runs of bytes -/

theorem writeBytes_wf {m : Memory} (h : Memory.wf c m = true) {a : Nat} {l : List Byte}
    (hl : ∀ k, k < l.length → a + k < c.memSize) : Memory.wf c (Memory.writeBytes c m a l) = true := by
  induction l generalizing m a with
  | nil => exact h
  | cons v l ih =>
    rw [Memory.writeBytes]
    refine ih (write_wf h (by simpa using hl 0 (by simp)) v) fun k hk => ?_
    have := hl (k + 1) (by simpa using hk)
    omega

/-- What an address reads as after a run of bytes is stored from `a`: the byte stored there, or what it read as before. -/
theorem read_writeBytes {m : Memory} (h : Memory.wf c m = true) {a : Nat} {l : List Byte}
    (hl : ∀ k, k < l.length → a + k < c.memSize) (b : Nat) :
    Memory.read c (Memory.writeBytes c m a l) b =
      if hb : a ≤ b ∧ b - a < l.length then l[b - a]'hb.2 else Memory.read c m b := by
  induction l generalizing m a with
  | nil => simp [Memory.writeBytes]
  | cons v l ih =>
    have h0 : a < c.memSize := by simpa using hl 0 (by simp)
    rw [Memory.writeBytes, ih (write_wf h h0 v) (fun k hk => by have := hl (k + 1) (by simpa using hk); omega),
      read_write h]
    rcases Nat.lt_trichotomy b a with hlt | heq | hgt
    · rw [dif_neg (by omega), if_neg (by omega), dif_neg (by omega)]
    · subst heq; rw [dif_neg (by omega), if_pos rfl, dif_pos (by simp)]; simp
    · by_cases hin : b - (a + 1) < l.length
      · rw [dif_pos ⟨by omega, hin⟩, dif_pos ⟨by omega, by simp; omega⟩]
        have e : b - a = b - (a + 1) + 1 := by omega
        simp [e]
      · rw [dif_neg (by omega), if_neg (by omega), dif_neg (by simp; omega)]

/-- Reading a byte in the state after a run of bytes was stored. -/
theorem byteAt_writeBytes {s : State} (h : Memory.wf s.cfg s.mem = true) {a : Nat} {l : List Byte}
    (hl : Backed s.cfg a l.length) (b : Nat) :
    (s.writeBytes a l).byteAt b = if hb : a ≤ b ∧ b - a < l.length then l[b - a]'hb.2 else s.byteAt b :=
  read_writeBytes h hl b

theorem byteAt_writeBytes_in {s : State} (h : Memory.wf s.cfg s.mem = true) {a : Nat} {l : List Byte}
    (hl : Backed s.cfg a l.length) {k : Nat} (hk : k < l.length) : (s.writeBytes a l).byteAt (a + k) = l[k] := by
  rw [byteAt_writeBytes h hl, dif_pos ⟨by omega, by omega⟩]
  simp

theorem byteAt_writeBytes_out {s : State} (h : Memory.wf s.cfg s.mem = true) {a : Nat} {l : List Byte}
    (hl : Backed s.cfg a l.length) {b : Nat} (hb : b < a ∨ a + l.length ≤ b) :
    (s.writeBytes a l).byteAt b = s.byteAt b := by
  rw [byteAt_writeBytes h hl, dif_neg (by omega)]

@[simp] theorem bytesAt_length (s : State) (a n : Nat) : (s.bytesAt a n).length = n := by
  induction n generalizing a with
  | zero => rfl
  | succ n ih => simp [State.bytesAt, ih]

theorem bytesAt_getElem (s : State) (a n k : Nat) (h : k < (s.bytesAt a n).length) :
    (s.bytesAt a n)[k] = s.byteAt (a + k) := by
  induction n generalizing a k with
  | zero => exact absurd h (by simp [State.bytesAt])
  | succ n ih =>
    cases k with
    | zero => rfl
    | succ k =>
      simp only [State.bytesAt, List.getElem_cons_succ]
      rw [ih]; congr 1; omega

theorem bytesAt_eq_of_same (s t : State) (hm : t.mem = s.mem) (hc : t.cfg = s.cfg) (a n : Nat) :
    t.bytesAt a n = s.bytesAt a n := by
  induction n generalizing a with
  | zero => rfl
  | succ n ih => simp [State.bytesAt, State.byteAt, hm, hc, ih]

/-! ### The range check (20_memory.md R55) -/

theorem firstUnbacked_none {base n : Nat} : firstUnbacked c base n = none ↔ Backed c base n := by
  induction n generalizing base with
  | zero => simp [firstUnbacked, Backed]
  | succ n ih =>
    simp only [firstUnbacked]
    split
    · rename_i h
      simp only [reduceCtorEq, false_iff]
      intro hb
      have := hb 0 (by omega)
      omega
    · rename_i h
      rw [ih]
      constructor
      · intro hb k hk
        cases k with
        | zero => omega
        | succ k => have := hb k (by omega); omega
      · intro hb k hk
        have := hb (k + 1) (by omega)
        omega

theorem firstUnbacked_some {base n a : Nat} : firstUnbacked c base n = some a ↔ LowestUnbacked c base n a := by
  induction n generalizing base with
  | zero => simp [firstUnbacked, LowestUnbacked]
  | succ n ih =>
    simp only [firstUnbacked]
    split
    · rename_i h
      simp only [Option.some.injEq]
      constructor
      · rintro rfl; exact ⟨⟨0, by omega, rfl⟩, h, fun k _ _ => by omega⟩
      · rintro ⟨⟨k, _, rfl⟩, _, hmin⟩
        have := hmin 0 (by omega) (by simpa using h)
        omega
    · rename_i h
      rw [ih]
      constructor
      · rintro ⟨⟨k, hk, rfl⟩, h2, h3⟩
        refine ⟨⟨k + 1, by omega, by omega⟩, h2, fun j hj hb => ?_⟩
        cases j with
        | zero => omega
        | succ j => have := h3 j (by omega) (by omega); omega
      · rintro ⟨⟨k, hk, rfl⟩, h2, h3⟩
        cases k with
        | zero => omega
        | succ k =>
          refine ⟨⟨k, by omega, by omega⟩, h2, fun j hj hb => ?_⟩
          have := h3 (j + 1) (by omega) (by omega)
          omega

theorem lowestUnbacked_exists {base n : Nat} (h : ¬ Backed c base n) : ∃ a, LowestUnbacked c base n a := by
  cases hf : firstUnbacked c base n with
  | none => exact absurd (firstUnbacked_none.mp hf) h
  | some a => exact ⟨a, firstUnbacked_some.mp hf⟩

/-- With a fixed size of memory, every byte of a run is backed when the last one is. -/
theorem backed_iff {base n : Nat} : Backed c base n ↔ n = 0 ∨ base + n ≤ c.memSize := by
  constructor
  · intro h
    cases n with
    | zero => exact Or.inl rfl
    | succ n => have := h n (by omega); omega
  · intro h k hk; omega

end Sys2Proof.Machine
end

