-- ==== Sys2Proof/Laws/Draw.lean ====
section
/-! SUPPORT. The framebuffer under a draw: what each byte and each pixel becomes, when a row collides, and that drawing twice
restores the picture. -/

namespace Sys2Proof.Machine

/-! ### Bytes -/

theorem fbByte_mod (fb : FrameBuffer) (k : Nat) : fbByte fb (k % 256) = fbByte fb k := by simp [fbByte]

theorem fb_ext {a b : FrameBuffer} (h : ∀ k, k < 256 → fbByte a k = fbByte b k) : a = b := by
  apply Vector.ext
  intro k hk
  have := h k hk
  simpa [fbByte, Nat.mod_eq_of_lt hk] using this

theorem fbByte_fbXor (fb : FrameBuffer) (b k : Nat) (m : Byte) :
    fbByte (fbXor fb b m) k = if k % 256 = b % 256 then fbByte fb k ^^^ m else fbByte fb k := by
  unfold fbXor fbByte
  split
  · rename_i h; simp [h]
  · rename_i h; exact Vector.getElem_set_ne _ _ (fun e => h e.symm)

@[simp] theorem fbByte_clear (k : Nat) : fbByte (Vector.replicate 256 0x00#8) k = 0x00#8 := by simp [fbByte]

theorem rowByte_lt (px py : Byte) (r : Nat) : rowByte px py r < 256 := Nat.mod_lt _ (by decide)
theorem spillByte_lt (px py : Byte) (r : Nat) : spillByte px py r < 256 := Nat.mod_lt _ (by decide)

/-- What row r of a sprite XORs into framebuffer byte k. -/
def rowEffect (px py : Byte) (r : Nat) (row : Byte) (k : Nat) : Byte :=
  (if k = rowByte px py r then rowMask px row else 0x00#8) ^^^
    (if k = spillByte px py r then spillMask px row else 0x00#8)

theorem fbByte_drawRow (px py : Byte) (r : Nat) (row : Byte) (fb : FrameBuffer) {k : Nat} (hk : k < 256) :
    fbByte (drawRow px py r row fb) k = fbByte fb k ^^^ rowEffect px py r row k := by
  have h0 := rowByte_lt px py r
  have h1 := spillByte_lt px py r
  simp only [drawRow, fbByte_fbXor, rowEffect, Nat.mod_eq_of_lt hk, Nat.mod_eq_of_lt h0, Nat.mod_eq_of_lt h1]
  split_ifs <;> simp only [BitVec.xor_assoc, BitVec.xor_zero, BitVec.zero_xor]

/-- What the rows of a sprite, the first as row r, XOR into framebuffer byte k. -/
def rowsEffect (px py : Byte) : Nat → List Byte → Nat → Byte
  | _, [], _ => 0x00#8
  | r, row :: rows, k => rowEffect px py r row k ^^^ rowsEffect px py (r + 1) rows k

theorem fbByte_drawRows (px py : Byte) (rows : List Byte) (r : Nat) (fb : FrameBuffer) {k : Nat} (hk : k < 256) :
    fbByte (drawRows px py r rows fb) k = fbByte fb k ^^^ rowsEffect px py r rows k := by
  induction rows generalizing r fb with
  | nil => simp [drawRows, rowsEffect]
  | cons row rows ih => rw [drawRows, ih, fbByte_drawRow _ _ _ _ _ hk, rowsEffect, BitVec.xor_assoc]

/-- Drawing the same rows at the same place twice restores the framebuffer (44_display.md R197). -/
theorem drawRows_twice (px py : Byte) (rows : List Byte) (r : Nat) (fb : FrameBuffer) :
    drawRows px py r rows (drawRows px py r rows fb) = fb := by
  apply fb_ext
  intro k hk
  rw [fbByte_drawRows _ _ _ _ _ hk, fbByte_drawRows _ _ _ _ _ hk, BitVec.xor_assoc, BitVec.xor_self, BitVec.xor_zero]

/-- The bytes of different rows differ: rows are 8 bytes apart (44_display.md R192). -/
theorem row_bytes_apart (px py : Byte) {r q : Nat} (hne : r ≠ q) (h : r < q + 32) (h' : q < r + 32) :
    rowByte px py r ≠ rowByte px py q ∧ rowByte px py r ≠ spillByte px py q ∧
      spillByte px py r ≠ rowByte px py q ∧ spillByte px py r ≠ spillByte px py q := by
  unfold spillByte rowByte
  omega

theorem row_and_spill_apart (px py : Byte) (r : Nat) : rowByte px py r ≠ spillByte px py r := by
  unfold spillByte rowByte; omega

theorem rowEffect_elsewhere {px py : Byte} {r : Nat} {row : Byte} {k : Nat} (h0 : k ≠ rowByte px py r)
    (h1 : k ≠ spillByte px py r) : rowEffect px py r row k = 0x00#8 := by simp [rowEffect, h0, h1]

theorem rowEffect_at_row (px py : Byte) (r : Nat) (row : Byte) :
    rowEffect px py r row (rowByte px py r) = rowMask px row := by
  simp [rowEffect, row_and_spill_apart px py r]

theorem rowEffect_at_spill (px py : Byte) (r : Nat) (row : Byte) :
    rowEffect px py r row (spillByte px py r) = spillMask px row := by
  simp [rowEffect, (row_and_spill_apart px py r).symm]

/-- A byte that no row of the draw spans is unchanged. -/
theorem rowsEffect_elsewhere {px py : Byte} {r : Nat} {rows : List Byte} {k : Nat}
    (h : ∀ j, j < rows.length → k ≠ rowByte px py (r + j) ∧ k ≠ spillByte px py (r + j)) :
    rowsEffect px py r rows k = 0x00#8 := by
  induction rows generalizing r with
  | nil => rfl
  | cons row rows ih =>
    have h0 := h 0 (by simp)
    rw [rowsEffect, rowEffect_elsewhere (by simpa using h0.1) (by simpa using h0.2), ih]
    · rfl
    · intro j hj
      have := h (j + 1) (by simpa using hj)
      rwa [show r + (j + 1) = r + 1 + j by omega] at this

/-- On a byte that row j of the draw spans, only that row has an effect: the rows are at most 32. -/
theorem rowsEffect_at {px py : Byte} {r : Nat} {rows : List Byte} {k j : Nat} (hlen : rows.length ≤ 32)
    (hj : j < rows.length) (hk : k = rowByte px py (r + j) ∨ k = spillByte px py (r + j)) :
    rowsEffect px py r rows k = rowEffect px py (r + j) rows[j] k := by
  induction rows generalizing r j with
  | nil => exact absurd hj (by simp)
  | cons row rows ih =>
    simp only [List.length_cons] at hlen hj
    cases j with
    | zero =>
      rw [rowsEffect, rowsEffect_elsewhere, BitVec.xor_zero]
      · rfl
      · intro q hq
        have := row_bytes_apart px py (r := r) (q := r + 1 + q) (by omega) (by omega) (by omega)
        rcases hk with rfl | rfl
        · exact ⟨this.1, this.2.1⟩
        · exact ⟨this.2.2.1, this.2.2.2⟩
    | succ j =>
      have hap := row_bytes_apart px py (r := r + (j + 1)) (q := r) (by omega) (by omega) (by omega)
      have h0 : rowEffect px py r row k = 0x00#8 := by
        rcases hk with rfl | rfl
        · exact rowEffect_elsewhere hap.1 hap.2.1
        · exact rowEffect_elsewhere hap.2.2.1 hap.2.2.2
      rw [show r + (j + 1) = r + 1 + j by omega] at hk ⊢
      rw [rowsEffect, h0, ih (by omega) (by omega) hk, BitVec.zero_xor]
      rfl

/-- The masks of a row as shifts of the row byte (44_display.md R194). -/
theorem rowMask_eq (px row : Byte) : rowMask px row = row >>> (px.toNat % 8) := by
  apply BitVec.eq_of_toNat_eq
  have := row.isLt
  have h : row.toNat >>> (px.toNat % 8) ≤ row.toNat := Nat.shiftRight_le _ _
  simp [rowMask, BitVec.toNat_ushiftRight]
  omega

theorem spillMask_eq (px row : Byte) : spillMask px row = row <<< (8 - px.toNat % 8) := by
  apply BitVec.eq_of_toNat_eq
  simp [spillMask, BitVec.toNat_shiftLeft]

/-- The two bytes that row j spans, after the draw (44_display.md R192). -/
theorem drawRows_at {px py : Byte} {rows : List Byte} {fb : FrameBuffer} {j : Nat} (hlen : rows.length ≤ 32)
    (hj : j < rows.length) :
    fbByte (drawRows px py 0 rows fb) (rowByte px py j) = fbByte fb (rowByte px py j) ^^^ rowMask px rows[j] ∧
    fbByte (drawRows px py 0 rows fb) (spillByte px py j) = fbByte fb (spillByte px py j) ^^^ spillMask px rows[j] := by
  constructor
  · rw [fbByte_drawRows _ _ _ _ _ (rowByte_lt ..), rowsEffect_at (j := j) hlen hj (by simp), Nat.zero_add, rowEffect_at_row]
  · rw [fbByte_drawRows _ _ _ _ _ (spillByte_lt ..), rowsEffect_at (j := j) hlen hj (by simp), Nat.zero_add,
      rowEffect_at_spill]

/-! ### Collision -/

theorem rowCollides_eq_of_same {px py : Byte} {r : Nat} {row : Byte} {fb fb' : FrameBuffer}
    (h0 : fbByte fb' (rowByte px py r) = fbByte fb (rowByte px py r))
    (h1 : fbByte fb' (spillByte px py r) = fbByte fb (spillByte px py r)) :
    rowCollides px py r row fb' = rowCollides px py r row fb := by
  unfold rowCollides; rw [h0, h1]

/-- A draw of at most 32 rows collides exactly when one of its rows collides with the framebuffer as it was before. -/
theorem drawCollides_iff {px py : Byte} {r : Nat} {rows : List Byte} {fb : FrameBuffer} (hlen : rows.length ≤ 32) :
    drawCollides px py r rows fb = true ↔
      ∃ j, ∃ h : j < rows.length, rowCollides px py (r + j) rows[j] fb = true := by
  induction rows generalizing r fb with
  | nil => simp [drawCollides]
  | cons row rows ih =>
    simp only [List.length_cons] at hlen
    rw [drawCollides, Bool.or_eq_true, ih (by omega)]
    have same : ∀ j, j < rows.length → ∀ w, rowCollides px py (r + 1 + j) w (drawRow px py r row fb) =
        rowCollides px py (r + 1 + j) w fb := by
      intro j hj w
      have hap := row_bytes_apart px py (r := r + 1 + j) (q := r) (by omega) (by omega) (by omega)
      apply rowCollides_eq_of_same
      · rw [fbByte_drawRow _ _ _ _ _ (rowByte_lt ..), rowEffect_elsewhere hap.1 hap.2.1, BitVec.xor_zero]
      · rw [fbByte_drawRow _ _ _ _ _ (spillByte_lt ..), rowEffect_elsewhere hap.2.2.1 hap.2.2.2, BitVec.xor_zero]
    constructor
    · rintro (h | ⟨j, hj, h⟩)
      · exact ⟨0, by simp, by simpa using h⟩
      · refine ⟨j + 1, by simpa using hj, ?_⟩
        rw [same j hj] at h
        rw [show r + (j + 1) = r + 1 + j by omega]
        exact h
    · rintro ⟨j, hj, h⟩
      cases j with
      | zero => exact Or.inl (by simpa using h)
      | succ j =>
        refine Or.inr ⟨j, by simpa using hj, ?_⟩
        rw [same j (by simpa using hj), show r + 1 + j = r + (j + 1) by omega]
        exact h

/-! ### Pixels: the framebuffer as 2048 pixels in a row, pixel p at bit `7 - p mod 8` of byte `p div 8` -/

/-- The linear number of the pixel at column j of row r of a sprite at (px, py). -/
def spritePixel (px py : Byte) (r j : Nat) : Nat := ((py.toNat + r) * 64 + px.toNat + j) % 2048

theorem getLsbD_rowMask (px row : Byte) (k : Nat) :
    (rowMask px row).getLsbD k = row.getLsbD (px.toNat % 8 + k) := by
  simp only [rowMask, BitVec.getLsbD_ofNat, Nat.testBit_shiftRight]
  by_cases hk : k < 8
  · simp [hk, BitVec.getLsbD, Nat.add_comm]
  · have : 8 ≤ px.toNat % 8 + k := by omega
    simp [hk, BitVec.getLsbD_of_ge _ _ this]

theorem getLsbD_spillMask (px row : Byte) {k : Nat} (hk : k < 8) :
    (spillMask px row).getLsbD k = (decide (8 ≤ px.toNat % 8 + k) && row.getLsbD (px.toNat % 8 + k - 8)) := by
  simp only [spillMask, BitVec.getLsbD_ofNat, Nat.testBit_shiftLeft, hk, decide_true, Bool.true_and]
  by_cases h : 8 ≤ px.toNat % 8 + k
  · simp [h, show k ≥ 8 - px.toNat % 8 by omega, BitVec.getLsbD,
      show k - (8 - px.toNat % 8) = px.toNat % 8 + k - 8 by omega]
  · simp [h, show ¬ k ≥ 8 - px.toNat % 8 by omega]

/-- The pixel at column j of row r is changed by bit `7 - j` of that row. -/
theorem rowEffect_at_pixel (px py : Byte) (r : Nat) (row : Byte) {j : Nat} (hj : j < 8) :
    (rowEffect px py r row (spritePixel px py r j / 8)).getLsbD (7 - spritePixel px py r j % 8) = row.getLsbD (7 - j) := by
  have ap := row_and_spill_apart px py r
  by_cases h : px.toNat % 8 + j < 8
  · have e : spritePixel px py r j / 8 = rowByte px py r := by unfold spritePixel rowByte; omega
    have q : px.toNat % 8 + (7 - spritePixel px py r j % 8) = 7 - j := by unfold spritePixel; omega
    rw [e, rowEffect_at_row, getLsbD_rowMask, q]
  · have e : spritePixel px py r j / 8 = spillByte px py r := by unfold spritePixel spillByte rowByte; omega
    have q : px.toNat % 8 + (7 - spritePixel px py r j % 8) - 8 = 7 - j := by unfold spritePixel; omega
    have q' : 8 ≤ px.toNat % 8 + (7 - spritePixel px py r j % 8) := by unfold spritePixel; omega
    rw [e, rowEffect_at_spill, getLsbD_spillMask _ _ (by omega), q]
    simp [q']

/-- A pixel in no column of row r is not changed by it. -/
theorem rowEffect_off_pixel (px py : Byte) (r : Nat) (row : Byte) {p : Nat} (hp : p < 2048)
    (h : ∀ j, j < 8 → p ≠ spritePixel px py r j) : (rowEffect px py r row (p / 8)).getLsbD (7 - p % 8) = false := by
  have ap := row_and_spill_apart px py r
  by_cases h0 : p / 8 = rowByte px py r
  · rw [h0, rowEffect_at_row, getLsbD_rowMask]
    apply BitVec.getLsbD_of_ge
    rcases Nat.lt_or_ge (p % 8) (px.toNat % 8) with hlt | hge
    · omega
    · exact absurd (by unfold spritePixel; unfold rowByte at h0; omega) (h (p % 8 - px.toNat % 8) (by omega))
  · by_cases h1 : p / 8 = spillByte px py r
    · rw [h1, rowEffect_at_spill, getLsbD_spillMask _ _ (by omega)]
      rcases Nat.lt_or_ge (p % 8) (px.toNat % 8) with hlt | hge
      · exact absurd (by unfold spritePixel; unfold spillByte rowByte at h1; omega)
          (h (8 + p % 8 - px.toNat % 8) (by omega))
      · simp; omega
    · rw [rowEffect_elsewhere h0 h1]; simp

end Sys2Proof.Machine
end

