-- ==== Sys2Proof/Laws/Exec.lean ====
section
/-! SUPPORT. What the shared operations of the execute phase can do, said once, and what follows for every instruction: it
answers a state; it takes a fault or completes; it keeps the invariant. -/

namespace Sys2Proof.Machine

/-! ### Small facts -/

theorem zext16_toNat (a : Addr) : (zext16 a).toNat = a.toNat := by
  simp only [zext16, BitVec.toNat_setWidth]; omega

theorem offsetTarget_toNat (a : Addr) (s : State) : (offsetTarget a s).toNat = a.toNat + (s.reg 0).toNat := by
  simp only [offsetTarget, BitVec.toNat_ofNat]; omega

theorem glyphAddress_toNat (c : Config) (v : Byte) :
    (glyphAddress c v).toNat = (c.fontBase + c.glyphSize * v.toNat) % 65536 := by
  simp [glyphAddress, Nat.mul_comm]

theorem countDown_toNat (b : Byte) : (countDown b).toNat = b.toNat - 1 := by
  unfold countDown
  split
  · rename_i h; subst h; rfl
  · rename_i h
    have : b.toNat ≠ 0 := fun e => h (BitVec.eq_of_toNat_eq e)
    rw [BitVec.toNat_sub]
    simp only [BitVec.toNat_ofNat]
    omega

@[simp] theorem flagByte_toNat (b : Bool) : (flagByte b).toNat = if b then 1 else 0 := by cases b <;> rfl

theorem flagByte_eq_one (b : Bool) : flagByte b = 0x01#8 ↔ b = true := by cases b <;> decide

theorem keyOf_some {v : Byte} (h : v.toNat < 16) : keyOf v = some ⟨v.toNat, h⟩ := by simp [keyOf, h]
theorem keyOf_none {v : Byte} : keyOf v = none ↔ 15 < v.toNat := by simp [keyOf]; omega

theorem regsTo_length (s : State) (x : RegIdx) : (s.regsTo x).length = x.val + 1 := by
  simp only [State.regsTo, List.length_take, Vector.length_toList]; omega

theorem regsTo_getElem (s : State) (x : RegIdx) {k : Nat} (h : k < (s.regsTo x).length) :
    (s.regsTo x)[k] = s.reg ⟨k, by rw [regsTo_length] at h; omega⟩ := by
  simp [State.regsTo, State.reg]

theorem loadedRegs_getElem (s : State) (x r : RegIdx) :
    (s.loadedRegs x)[r.val] = if r ≤ x then s.byteAt (s.base + r.val) else s.reg r := by
  simp only [State.loadedRegs, State.reg, Vector.getElem_mapFinIdx, Fin.le_def]

theorem mem_allKeys (k : KeyIdx) : k ∈ allKeys := by revert k; decide

theorem mem_pressedKeys {s : State} {k : KeyIdx} : k ∈ s.pressedKeys ↔ s.keyState k = .pressed := by
  simp [State.pressedKeys, mem_allKeys]

/-! ### The frame -/

theorem frame_refl (s : State) (regs : List RegIdx) (parts : List Part) : Frame regs parts s s := by
  simp [Frame]

theorem frame_setStatus {regs : List RegIdx} {parts : List Part} {s t : State} (q : Status) :
    Frame regs parts s (t.setStatus q) ↔ Frame regs parts s t := by simp [Frame]

/-! ### The end of a tick -/

theorem finish_eq {r : Status} {s t : State} : finish r s = .next t ↔ t = s.setStatus r := by
  simp [finish, eq_comm]

/-- All that raising a fault does. -/
theorem raiseFault_eq {kind : FaultKind} {s t : State} :
    raiseFault kind s = .next t ↔ t = enterFault kind (s.pc - 2#16) (some (s.wordAt (s.pc - 2#16).toNat)) s := by
  simp [raiseFault, eq_comm]

theorem faultedFrom_enterFault (kind : FaultKind) (s : State) :
    FaultedFrom kind s (enterFault kind (s.pc - 2#16) (some (s.wordAt (s.pc - 2#16).toNat)) s) := by
  simp [FaultedFrom, Frame]

theorem raiseFault_faultedFrom (kind : FaultKind) (s : State) : ∃ t, raiseFault kind s = .next t ∧ FaultedFrom kind s t :=
  ⟨_, rfl, faultedFrom_enterFault kind s⟩

/-! ### Stack -/

theorem sp_lt_entries {s : State} (h : s.sp.val < s.cfg.stackDepth.val) : s.sp.val < 15 :=
  Nat.lt_of_lt_of_le h (Nat.le_of_lt_succ s.cfg.stackDepth.isLt)

theorem push_some {w : Word} {s : State} (h : s.sp.val < s.cfg.stackDepth.val) :
    push w s = some { s with
      stack := s.stack.set s.sp.val w (sp_lt_entries h), sp := ⟨s.sp.val + 1, Nat.succ_lt_succ (sp_lt_entries h)⟩ } := by
  simp [push, h]

theorem push_none {w : Word} {s : State} : push w s = none ↔ s.cfg.stackDepth.val ≤ s.sp.val := by
  unfold push; split <;> simp <;> omega

theorem pop_some {s : State} (h : 0 < s.sp.val) :
    pop s = some (s.stack[s.sp.val - 1]'(by omega), { s with sp := ⟨s.sp.val - 1, by omega⟩ }) := by
  simp [pop, h]

theorem pop_none {s : State} : pop s = none ↔ s.sp.val = 0 := by
  unfold pop
  split
  · exact ⟨(by rintro ⟨⟩), fun h => by omega⟩
  · exact ⟨fun _ => (by omega), fun _ => rfl⟩

/-! ### Flag and destination (42_alu.md R140) -/

theorem flagThenDest_allowed {x : RegIdx} {f r : Byte} {s : State} (h : DestAllowed s x) :
    flagThenDest x f r s = finish .ok ((s.setReg VF f).setReg x r) := by
  unfold flagThenDest
  rw [if_neg]
  rintro ⟨h1, h2⟩
  rcases h with h | h
  · exact h h1
  · rw [h] at h2; cases h2

theorem flagThenDest_not_allowed {x : RegIdx} {f r : Byte} {s : State} (h : ¬ DestAllowed s x) :
    x = VF ∧ flagThenDest x f r s = raiseFault (.undefinedResult x) s := by
  have h1 : x = VF := Classical.byContradiction fun e => h (Or.inl e)
  have h2 : s.cfg.vfDest = .fault := by
    cases e : s.cfg.vfDest with
    | lastWriteWins => exact absurd (Or.inr e) h
    | fault => rfl
  exact ⟨h1, by simp [flagThenDest, h1, h2]⟩

theorem flagThenDest_completes {i : Instr} {x : RegIdx} {f r : Byte} {s : State} {post : State → Prop}
    (he : exec i s = flagThenDest x f r s) (h : DestAllowed s x)
    (hp : ∀ t : State, t.reg x = r → (x ≠ VF → t.reg VF = f) → post t) : Completes i s .ok [x, VF] [] post := by
  refine ⟨_, he.trans (flagThenDest_allowed h), rfl, ?_, hp _ ?_ ?_⟩
  · rw [frame_setStatus]
    simp +contextual [Frame, reg_setReg]
  · simp
  · intro hx; simp [reg_setReg, Ne.symm hx]

/-! ### The forms of a completion, and of a fault -/

theorem completes_of {i : Instr} {s u : State} {r : Status} {regs : List RegIdx} {parts : List Part} {post : State → Prop}
    (he : exec i s = finish r u) (hf : Frame regs parts s u) (hp : post (u.setStatus r)) : Completes i s r regs parts post :=
  ⟨_, he, rfl, (frame_setStatus r).mpr hf, hp⟩

theorem traps_of {i : Instr} {s : State} {kind : FaultKind} (he : exec i s = raiseFault kind s) : Traps i s kind :=
  ⟨_, he, faultedFrom_enterFault kind s⟩

theorem traps_of_flagThenDest {i : Instr} {s : State} {x : RegIdx} {f r : Byte} (he : exec i s = flagThenDest x f r s)
    (h : ¬ DestAllowed s x) : Traps i s (.undefinedResult VF) := by
  obtain ⟨rfl, h2⟩ := flagThenDest_not_allowed (f := f) (r := r) h
  exact traps_of (he.trans h2)

theorem frame_setReg (s : State) (x : RegIdx) (b : Byte) : Frame [x] [] s (s.setReg x b) := by
  simp +contextual [Frame, reg_setReg]

theorem frame_setPc (s : State) (w : Word) : Frame [] [.pc] s (s.setPc w) := by simp [Frame]

theorem frame_setI (s : State) (w : Word) : Frame [] [.i] s (s.setI w) := by simp [Frame]

/-! ### Results of the ALU -/

theorem sumByte_toNat (a b : Byte) : (sumByte a b).toNat = (a.toNat + b.toNat) % 256 := by simp [sumByte]

theorem diffByte_toNat (a b : Byte) : (diffByte a b).toNat = (a.toNat + 256 - b.toNat) % 256 := by
  have := a.isLt
  have := b.isLt
  simp only [diffByte, BitVec.toNat_ofInt]
  omega

theorem shrByte_getLsbD (a : Byte) (k : Nat) : (shrByte a).getLsbD k = a.getLsbD (k + 1) := by
  have e : shrByte a = a >>> 1 := by
    apply BitVec.eq_of_toNat_eq
    simp [shrByte, Nat.shiftRight_eq_div_pow]
    omega
  rw [e, BitVec.getLsbD_ushiftRight, Nat.add_comm]

theorem shlByte_getLsbD (a : Byte) {k : Nat} (h : k < 8) :
    (shlByte a).getLsbD k = (decide (0 < k) && a.getLsbD (k - 1)) := by
  have e : shlByte a = a <<< 1 := by
    apply BitVec.eq_of_toNat_eq
    simp [shlByte, Nat.shiftLeft_eq]
  rw [e, BitVec.getLsbD_shiftLeft]
  cases k <;> simp [h]

/-! ### The chosen key (45_keys_timers.md R214) -/

theorem chosenKey_none {s : State} (h : ∀ k, s.keyState k ≠ .pressed) : s.chosenKey = none := by
  have : s.pressedKeys = [] := by
    rw [List.eq_nil_iff_forall_not_mem]
    exact fun k hk => h k (mem_pressedKeys.mp hk)
  simp [State.chosenKey, this]

theorem chosenKey_some {s : State} {k : KeyIdx} (h : s.keyState k = .pressed) :
    ∃ j, s.chosenKey = some j ∧ s.keyState j = .pressed := by
  have hk : k ∈ s.pressedKeys := mem_pressedKeys.mpr h
  have hlt : s.input.keyChoice % s.pressedKeys.length < s.pressedKeys.length := Nat.mod_lt _ (List.length_pos_of_mem hk)
  exact ⟨s.pressedKeys[s.input.keyChoice % s.pressedKeys.length],
    by simp [State.chosenKey, List.getElem?_eq_getElem hlt], mem_pressedKeys.mp (List.getElem_mem hlt)⟩

/-! ### Each instruction whose answer depends on a check, in each case of it -/

theorem exec_ret {s : State} (h : 0 < s.sp.val) : exec .ret s = finish .ok
    (State.setPc { s with sp := ⟨s.sp.val - 1, by omega⟩ } (s.stack[s.sp.val - 1]'(by omega))) := by
  simp only [exec, execRet, pop_some h]

theorem exec_ret_empty {s : State} (h : s.sp.val = 0) : exec .ret s = raiseFault .stackUnderflow s := by
  simp only [exec, execRet, pop_none.mpr h]

theorem exec_call {nnn : Addr} {s : State} (h : s.sp.val < s.cfg.stackDepth.val) : exec (.call nnn) s = finish .ok
    (State.setPc { s with
      stack := s.stack.set s.sp.val s.pc (sp_lt_entries h), sp := ⟨s.sp.val + 1, Nat.succ_lt_succ (sp_lt_entries h)⟩ }
      (zext16 nnn)) := by
  simp only [exec, execCall, push_some h]

theorem exec_call_full {nnn : Addr} {s : State} (h : s.cfg.stackDepth.val ≤ s.sp.val) :
    exec (.call nnn) s = raiseFault (.stackOverflow s.sp.val) s := by
  simp only [exec, execCall, push_none.mpr h]

theorem exec_seImm (x : RegIdx) (kk : Byte) (s : State) :
    exec (.seImm x kk) s = finish .ok (s.setPc (if s.reg x = kk then s.pc + 2#16 else s.pc)) := by
  simp [exec, execSeImm, skipIf_eq]

theorem exec_sneImm (x : RegIdx) (kk : Byte) (s : State) :
    exec (.sneImm x kk) s = finish .ok (s.setPc (if s.reg x = kk then s.pc else s.pc + 2#16)) := by
  simp [exec, execSneImm, skipIf_eq, ite_not]

theorem exec_seReg (x y : RegIdx) (s : State) :
    exec (.seReg x y) s = finish .ok (s.setPc (if s.reg x = s.reg y then s.pc + 2#16 else s.pc)) := by
  simp [exec, execSeReg, skipIf_eq]

theorem exec_sneReg (x y : RegIdx) (s : State) :
    exec (.sneReg x y) s = finish .ok (s.setPc (if s.reg x = s.reg y then s.pc else s.pc + 2#16)) := by
  simp [exec, execSneReg, skipIf_eq, ite_not]

theorem exec_skp {x : RegIdx} {s : State} (h : (s.reg x).toNat < 16) : exec (.skp x) s =
    finish .ok (s.setPc (if s.keyState ⟨(s.reg x).toNat, h⟩ = .up then s.pc else s.pc + 2#16)) := by
  simp [exec, execSkp, keyOf_some h, skipIf_eq, ite_not]

theorem exec_sknp {x : RegIdx} {s : State} (h : (s.reg x).toNat < 16) : exec (.sknp x) s =
    finish .ok (s.setPc (if s.keyState ⟨(s.reg x).toNat, h⟩ = .up then s.pc + 2#16 else s.pc)) := by
  simp [exec, execSknp, keyOf_some h, skipIf_eq]

theorem exec_skp_no_key {x : RegIdx} {s : State} (h : 15 < (s.reg x).toNat) :
    exec (.skp x) s = raiseFault (.invalidKey (s.reg x)) s := by
  simp only [exec, execSkp, keyOf_none.mpr h]

theorem exec_sknp_no_key {x : RegIdx} {s : State} (h : 15 < (s.reg x).toNat) :
    exec (.sknp x) s = raiseFault (.invalidKey (s.reg x)) s := by
  simp only [exec, execSknp, keyOf_none.mpr h]

theorem exec_ldVxK_key {x : RegIdx} {s : State} {k : KeyIdx} (h : s.chosenKey = some k) :
    exec (.ldVxK x) s = finish .ok (s.setReg x (BitVec.ofNat 8 k.val)) := by
  simp only [exec, execLdVxK, h]

theorem exec_ldVxK_stall {x : RegIdx} {s : State} (h : s.chosenKey = none) :
    exec (.ldVxK x) s = finish .ok (s.setPc (s.pc - 2#16)) := by
  simp only [exec, execLdVxK, h]

theorem exec_ldB {x : RegIdx} {s : State} (h : Backed s.cfg s.base 3) :
    exec (.ldB x) s = finish .ok (s.writeBytes s.base (bcdDigits (s.reg x))) := by
  simp only [exec, execLdB, firstUnbacked_none.mpr h]

theorem exec_ldB_out {x : RegIdx} {s : State} {a : Nat} (h : LowestUnbacked s.cfg s.base 3 a) :
    exec (.ldB x) s = raiseFault (.memoryOutOfRange a) s := by
  simp only [exec, execLdB, firstUnbacked_some.mpr h]

theorem exec_ldMemVx {x : RegIdx} {s : State} (h : Backed s.cfg s.base (x.val + 1)) :
    exec (.ldMemVx x) s = finish .ok (s.writeBytes s.base (s.regsTo x)) := by
  simp only [exec, execLdMemVx, firstUnbacked_none.mpr h]

theorem exec_ldMemVx_out {x : RegIdx} {s : State} {a : Nat} (h : LowestUnbacked s.cfg s.base (x.val + 1) a) :
    exec (.ldMemVx x) s = raiseFault (.memoryOutOfRange a) s := by
  simp only [exec, execLdMemVx, firstUnbacked_some.mpr h]

theorem exec_ldVxMem {x : RegIdx} {s : State} (h : Backed s.cfg s.base (x.val + 1)) :
    exec (.ldVxMem x) s = finish .ok (s.setRegs (s.loadedRegs x)) := by
  simp only [exec, execLdVxMem, firstUnbacked_none.mpr h]

theorem exec_ldVxMem_out {x : RegIdx} {s : State} {a : Nat} (h : LowestUnbacked s.cfg s.base (x.val + 1) a) :
    exec (.ldVxMem x) s = raiseFault (.memoryOutOfRange a) s := by
  simp only [exec, execLdVxMem, firstUnbacked_some.mpr h]

theorem exec_drw {x y : RegIdx} {n : Nibble} {s : State} (h : Backed s.cfg s.base n.toNat) :
    exec (.drw x y n) s = finish .framebufferChanged
      ((s.setFb (drawRows (s.reg x) (s.reg y) 0 (s.bytesAt s.base n.toNat) s.fb)).setReg VF
        (flagByte (drawCollides (s.reg x) (s.reg y) 0 (s.bytesAt s.base n.toNat) s.fb))) := by
  simp only [exec, execDrw, firstUnbacked_none.mpr h]

theorem exec_drw_out {x y : RegIdx} {n : Nibble} {s : State} {a : Nat} (h : LowestUnbacked s.cfg s.base n.toNat a) :
    exec (.drw x y n) s = raiseFault (.memoryOutOfRange a) s := by
  simp only [exec, execDrw, firstUnbacked_some.mpr h]

/-! ### Every instruction: it completes, or it takes one fault -/

/-- The execute phase in `s` answered `o` without a fault: the status is `r`, and what the invariant needs is kept. -/
def EndsOk (s : State) (o : Host.Outcome State Fault Refusal) (r : Status) : Prop :=
  ∃ t, o = .next t ∧ t.run = s.run ∧ t.status = some r ∧ t.cfg = s.cfg ∧
    (Memory.wf s.cfg s.mem = true → Memory.wf s.cfg t.mem = true) ∧
    (s.sp.val ≤ s.cfg.stackDepth.val → t.sp.val ≤ s.cfg.stackDepth.val)

/-- The execute phase in `s` took one fault, and its record is a legal one. -/
def EndsFaulted (s : State) (o : Host.Outcome State Fault Refusal) : Prop :=
  ∃ kind, o = raiseFault kind s ∧ (s.sp.val ≤ s.cfg.stackDepth.val → FaultRecord.legal s.cfg
    { kind := kind, address := s.pc - 2#16, opcode := some (s.wordAt (s.pc - 2#16).toNat) } = true)

/-- What the execute phase of any instruction can end in: a state that did not fault, with the status of R106; or the state in
which one fault of the kinds of an instruction's own check (60_exceptions.md R238) was taken. -/
theorem exec_cases (i : Instr) (s : State) :
    EndsOk s (exec i s) (match i with | .drw _ _ _ => .framebufferChanged | _ => .ok) ∨ EndsFaulted s (exec i s) := by
  have okSp : ∀ {j : Instr} {u : State} {r : Status}, exec j s = finish r u → u.run = s.run → u.cfg = s.cfg →
      u.mem = s.mem → (s.sp.val ≤ s.cfg.stackDepth.val → u.sp.val ≤ s.cfg.stackDepth.val) → EndsOk s (exec j s) r :=
    fun he h1 h2 h3 h4 => ⟨_, he, h1, rfl, h2, by simp [h3], h4⟩
  have ok : ∀ {j : Instr} {u : State} {r : Status}, exec j s = finish r u → u.run = s.run → u.cfg = s.cfg →
      u.mem = s.mem → (h : u.sp = s.sp := by rfl) → EndsOk s (exec j s) r :=
    fun he h1 h2 h3 h4 => okSp he h1 h2 h3 (by rw [h4]; exact id)
  have flag : ∀ {j : Instr} {x : RegIdx} {f b : Byte}, exec j s = flagThenDest x f b s →
      EndsOk s (exec j s) .ok ∨ EndsFaulted s (exec j s) := by
    intro j x f b he
    by_cases h : DestAllowed s x
    · exact Or.inl (ok (he.trans (flagThenDest_allowed h)) rfl rfl rfl)
    · obtain ⟨hx, hf⟩ := flagThenDest_not_allowed (f := f) (r := b) h
      refine Or.inr ⟨_, he.trans hf, fun _ => ?_⟩
      have : s.cfg.vfDest = .fault := by
        cases e : s.cfg.vfDest with
        | lastWriteWins => exact absurd (Or.inr e) h
        | fault => rfl
      simp [FaultRecord.legal, hx, this]
  have range : ∀ {j : Instr} {n a : Nat}, LowestUnbacked s.cfg s.base n a → exec j s = raiseFault (.memoryOutOfRange a) s →
      EndsFaulted s (exec j s) :=
    fun h he => ⟨_, he, fun _ => by simpa [FaultRecord.legal] using h.2.1⟩
  have store : ∀ {j : Instr} {n : Nat} {l : List Byte}, l.length = n → exec j s = (match firstUnbacked s.cfg s.base n with
        | some a => raiseFault (.memoryOutOfRange a) s
        | none => finish .ok (s.writeBytes s.base l)) → EndsOk s (exec j s) .ok ∨ EndsFaulted s (exec j s) := by
    intro j n l hl he
    cases hf : firstUnbacked s.cfg s.base n with
    | some a =>
      rw [hf] at he
      exact Or.inr (range (firstUnbacked_some.mp hf) he)
    | none =>
      rw [hf] at he
      refine Or.inl ⟨_, he, rfl, rfl, rfl, fun hw => writeBytes_wf hw ?_, id⟩
      rw [hl]; exact firstUnbacked_none.mp hf
  cases i with
  | cls => exact Or.inl (ok (u := s.setFb _) rfl rfl rfl rfl)
  | ret =>
    by_cases h : 0 < s.sp.val
    · exact Or.inl (okSp (exec_ret h) rfl rfl rfl fun hs => Nat.le_trans (Nat.sub_le _ 1) hs)
    · exact Or.inr ⟨_, exec_ret_empty (by omega), fun _ => rfl⟩
  | sys => exact Or.inl (ok (u := s) rfl rfl rfl rfl)
  | jp => exact Or.inl (ok (u := s.setPc _) rfl rfl rfl rfl)
  | call nnn =>
    by_cases h : s.sp.val < s.cfg.stackDepth.val
    · exact Or.inl (okSp (exec_call h) rfl rfl rfl fun _ => h)
    · refine Or.inr ⟨_, exec_call_full (by omega), fun hs => ?_⟩
      simp only [FaultRecord.legal, Option.isSome_some, Bool.and_true, decide_eq_true_eq]
      omega
  | seImm x kk => exact Or.inl (ok (exec_seImm x kk s) rfl rfl rfl)
  | sneImm x kk => exact Or.inl (ok (exec_sneImm x kk s) rfl rfl rfl)
  | seReg x y => exact Or.inl (ok (exec_seReg x y s) rfl rfl rfl)
  | sneReg x y => exact Or.inl (ok (exec_sneReg x y s) rfl rfl rfl)
  | ldImm => exact Or.inl (ok (u := s.setReg _ _) rfl rfl rfl rfl)
  | addImm => exact flag rfl
  | ldReg => exact Or.inl (ok (u := s.setReg _ _) rfl rfl rfl rfl)
  | orReg => exact Or.inl (ok (u := s.setReg _ _) rfl rfl rfl rfl)
  | andReg => exact Or.inl (ok (u := s.setReg _ _) rfl rfl rfl rfl)
  | xorReg => exact Or.inl (ok (u := s.setReg _ _) rfl rfl rfl rfl)
  | addReg => exact flag rfl
  | sub => exact flag rfl
  | shr => exact flag rfl
  | subn => exact flag rfl
  | shl => exact flag rfl
  | ldI => exact Or.inl (ok (u := s.setI _) rfl rfl rfl rfl)
  | jpV0 => exact Or.inl (ok (u := s.setPc _) rfl rfl rfl rfl)
  | rnd => exact Or.inl (ok (u := s.setReg _ _) rfl rfl rfl rfl)
  | drw x y n =>
    cases hf : firstUnbacked s.cfg s.base n.toNat with
    | some a => exact Or.inr (range (firstUnbacked_some.mp hf) (exec_drw_out (firstUnbacked_some.mp hf)))
    | none => exact Or.inl (ok (exec_drw (firstUnbacked_none.mp hf)) rfl rfl rfl)
  | skp x =>
    by_cases h : (s.reg x).toNat < 16
    · exact Or.inl (ok (exec_skp h) rfl rfl rfl)
    · have h' : 15 < (s.reg x).toNat := by omega
      exact Or.inr ⟨_, exec_skp_no_key h', fun _ => by simp [FaultRecord.legal, h']⟩
  | sknp x =>
    by_cases h : (s.reg x).toNat < 16
    · exact Or.inl (ok (exec_sknp h) rfl rfl rfl)
    · have h' : 15 < (s.reg x).toNat := by omega
      exact Or.inr ⟨_, exec_sknp_no_key h', fun _ => by simp [FaultRecord.legal, h']⟩
  | ldVxDt => exact Or.inl (ok (u := s.setReg _ _) rfl rfl rfl rfl)
  | ldVxK x =>
    cases hk : s.chosenKey with
    | none => exact Or.inl (ok (exec_ldVxK_stall hk) rfl rfl rfl)
    | some k => exact Or.inl (ok (exec_ldVxK_key hk) rfl rfl rfl)
  | ldDtVx => exact Or.inl (ok (u := s.setDt _) rfl rfl rfl rfl)
  | ldStVx => exact Or.inl (ok (u := s.setSt _) rfl rfl rfl rfl)
  | addI => exact Or.inl (ok (u := s.setI _) rfl rfl rfl rfl)
  | ldF => exact Or.inl (ok (u := s.setI _) rfl rfl rfl rfl)
  | ldB x => exact store (l := bcdDigits (s.reg x)) rfl rfl
  | ldMemVx x => exact store (l := s.regsTo x) (regsTo_length s x) rfl
  | ldVxMem x =>
    cases hf : firstUnbacked s.cfg s.base (x.val + 1) with
    | some a => exact Or.inr (range (firstUnbacked_some.mp hf) (exec_ldVxMem_out (firstUnbacked_some.mp hf)))
    | none => exact Or.inl (ok (exec_ldVxMem (firstUnbacked_none.mp hf)) rfl rfl rfl)

/-- An execute phase that ends faulted took one fault, and did nothing else. -/
theorem exec_fault {i : Instr} {s t : State} {r : FaultRecord} (h : exec i s = .next t) (hs : s.run = .running)
    (hr : t.run = .faulted r) : ∃ kind, t = enterFault kind (s.pc - 2#16) (some (s.wordAt (s.pc - 2#16).toNat)) s ∧
      (s.sp.val ≤ s.cfg.stackDepth.val → FaultRecord.legal s.cfg
        { kind := kind, address := s.pc - 2#16, opcode := some (s.wordAt (s.pc - 2#16).toNat) } = true) := by
  rcases exec_cases i s with ⟨u, h1, h2, _⟩ | ⟨kind, h1, h2⟩
  · rw [h1] at h; cases h; rw [h2, hs] at hr; cases hr
  · rw [h1, raiseFault_eq] at h; exact ⟨kind, h, h2⟩

/-- Every instruction answers a state. -/
theorem exec_answers (i : Instr) (s : State) : ∃ t, exec i s = .next t := by
  rcases exec_cases i s with ⟨t, h, _⟩ | ⟨kind, h, _⟩
  · exact ⟨t, h⟩
  · exact ⟨_, h⟩

end Sys2Proof.Machine
end

