-- ==== Sys2Proof/Laws/Frames.lean ====
section
/-! SUPPORT. One frame for every instruction, faults included: the registers and parts of the state it may change. -/

namespace Sys2Proof.Machine

/-- The registers an instruction may write (10_state.md R21 to R23). -/
def writtenRegs : Instr → List RegIdx
  | .cls | .ret | .sys _ | .jp _ | .call _ | .seImm _ _ | .sneImm _ _ | .seReg _ _ | .sneReg _ _ | .ldI _ | .jpV0 _ => []
  | .skp _ | .sknp _ | .ldDtVx _ | .ldStVx _ | .addI _ | .ldF _ | .ldB _ | .ldMemVx _ => []
  | .ldImm x _ | .rnd x _ | .ldReg x _ | .orReg x _ | .andReg x _ | .xorReg x _ | .ldVxDt x | .ldVxK x => [x]
  | .addImm x _ | .addReg x _ | .sub x _ | .shr x _ | .subn x _ | .shl x _ => [x, VF]
  | .drw _ _ _ => [VF]
  | .ldVxMem x => (List.finRange 16).filter (· ≤ x)

/-- The parts of the state an instruction may change after the pre-increment; `run` and `pc` for those that have a check of
their own (60_exceptions.md R238). -/
def writtenParts : Instr → List Part
  | .cls => [.fb]
  | .ret | .call _ => [.pc, .stack, .run]
  | .jp _ | .jpV0 _ | .seImm _ _ | .sneImm _ _ | .seReg _ _ | .sneReg _ _ | .ldVxK _ => [.pc]
  | .sys _ | .ldImm _ _ | .rnd _ _ | .ldReg _ _ | .orReg _ _ | .andReg _ _ | .xorReg _ _ | .ldVxDt _ => []
  | .addImm _ _ | .addReg _ _ | .sub _ _ | .shr _ _ | .subn _ _ | .shl _ _ | .skp _ | .sknp _ | .ldVxMem _ => [.pc, .run]
  | .drw _ _ _ => [.pc, .fb, .run]
  | .ldI _ | .addI _ | .ldF _ => [.i]
  | .ldDtVx _ => [.dt]
  | .ldStVx _ => [.st]
  | .ldB _ | .ldMemVx _ => [.pc, .mem, .run]

theorem frame_of_finish {i : Instr} {s u t : State} {r : Status} (h : exec i s = .next t) (he : exec i s = finish r u)
    {regs : List RegIdx} {parts : List Part} (hf : Frame regs parts s u) : Frame regs parts s t := by
  rw [he, finish_eq] at h
  rw [h, frame_setStatus]
  exact hf

theorem frame_of_fault {i : Instr} {s t : State} {kind : FaultKind} (h : exec i s = .next t) (he : exec i s = raiseFault kind s)
    {regs : List RegIdx} {parts : List Part} (hp : Part.pc ∈ parts) (hr : Part.run ∈ parts) : Frame regs parts s t := by
  rw [he, raiseFault_eq] at h
  rw [h]
  simp [Frame, hp, hr]

/-- THE FRAME OF EVERY INSTRUCTION. -/
theorem exec_frame {i : Instr} {s t : State} (h : exec i s = .next t) : Frame (writtenRegs i) (writtenParts i) s t := by
  have flag : ∀ {j : Instr} {x : RegIdx} {f b : Byte}, exec j s = .next t → exec j s = flagThenDest x f b s →
      Frame [x, VF] [.pc, .run] s t := by
    intro j x f b h he
    by_cases hd : DestAllowed s x
    · refine frame_of_finish h (he.trans (flagThenDest_allowed hd)) ?_
      simp +contextual [Frame, reg_setReg]
    · exact frame_of_fault h (he.trans (flagThenDest_not_allowed hd).2) (by simp) (by simp)
  cases i with
  | cls => exact frame_of_finish h (u := s.setFb _) rfl (by simp [Frame, writtenRegs, writtenParts])
  | ret =>
    by_cases hs : 0 < s.sp.val
    · refine frame_of_finish h (exec_ret hs) ?_
      refine ⟨fun r _ => rfl, ?_⟩
      simp [writtenParts]
      exact fun a => rfl
    · exact frame_of_fault h (exec_ret_empty (by omega)) (by simp [writtenParts]) (by simp [writtenParts])
  | sys => exact frame_of_finish h (u := s) rfl (frame_refl s _ _)
  | jp => exact frame_of_finish h (u := s.setPc _) rfl (by simp [Frame, writtenRegs, writtenParts])
  | call nnn =>
    by_cases hs : s.sp.val < s.cfg.stackDepth.val
    · refine frame_of_finish h (exec_call hs) ?_
      refine ⟨fun r _ => rfl, ?_⟩
      simp [writtenParts]
      exact fun a => rfl
    · exact frame_of_fault h (exec_call_full (by omega)) (by simp [writtenParts]) (by simp [writtenParts])
  | seImm x kk => exact frame_of_finish h (exec_seImm x kk s) (by simp [Frame, writtenRegs, writtenParts])
  | sneImm x kk => exact frame_of_finish h (exec_sneImm x kk s) (by simp [Frame, writtenRegs, writtenParts])
  | seReg x y => exact frame_of_finish h (exec_seReg x y s) (by simp [Frame, writtenRegs, writtenParts])
  | sneReg x y => exact frame_of_finish h (exec_sneReg x y s) (by simp [Frame, writtenRegs, writtenParts])
  | ldImm x kk => exact frame_of_finish h (u := s.setReg _ _) rfl (by simp +contextual [Frame, writtenRegs, reg_setReg])
  | addImm => exact flag h rfl
  | ldReg x y => exact frame_of_finish h (u := s.setReg _ _) rfl (by simp +contextual [Frame, writtenRegs, reg_setReg])
  | orReg x y => exact frame_of_finish h (u := s.setReg _ _) rfl (by simp +contextual [Frame, writtenRegs, reg_setReg])
  | andReg x y => exact frame_of_finish h (u := s.setReg _ _) rfl (by simp +contextual [Frame, writtenRegs, reg_setReg])
  | xorReg x y => exact frame_of_finish h (u := s.setReg _ _) rfl (by simp +contextual [Frame, writtenRegs, reg_setReg])
  | addReg => exact flag h rfl
  | sub => exact flag h rfl
  | shr => exact flag h rfl
  | subn => exact flag h rfl
  | shl => exact flag h rfl
  | ldI => exact frame_of_finish h (u := s.setI _) rfl (by simp [Frame, writtenRegs, writtenParts])
  | jpV0 => exact frame_of_finish h (u := s.setPc _) rfl (by simp [Frame, writtenRegs, writtenParts])
  | rnd x kk => exact frame_of_finish h (u := s.setReg _ _) rfl (by simp +contextual [Frame, writtenRegs, reg_setReg])
  | drw x y n =>
    cases hf : firstUnbacked s.cfg s.base n.toNat with
    | some a => exact frame_of_fault h (exec_drw_out (firstUnbacked_some.mp hf)) (by simp [writtenParts]) (by simp [writtenParts])
    | none =>
      exact frame_of_finish h (exec_drw (firstUnbacked_none.mp hf))
        (by simp +contextual [Frame, writtenRegs, writtenParts, reg_setReg])
  | skp x =>
    by_cases hk : (s.reg x).toNat < 16
    · exact frame_of_finish h (exec_skp hk) (by simp [Frame, writtenRegs, writtenParts])
    · exact frame_of_fault h (exec_skp_no_key (by omega)) (by simp [writtenParts]) (by simp [writtenParts])
  | sknp x =>
    by_cases hk : (s.reg x).toNat < 16
    · exact frame_of_finish h (exec_sknp hk) (by simp [Frame, writtenRegs, writtenParts])
    · exact frame_of_fault h (exec_sknp_no_key (by omega)) (by simp [writtenParts]) (by simp [writtenParts])
  | ldVxDt x => exact frame_of_finish h (u := s.setReg _ _) rfl (by simp +contextual [Frame, writtenRegs, reg_setReg])
  | ldVxK x =>
    cases hk : s.chosenKey with
    | none => exact frame_of_finish h (exec_ldVxK_stall hk) (by simp [Frame, writtenRegs, writtenParts])
    | some k => exact frame_of_finish h (exec_ldVxK_key hk) (by simp +contextual [Frame, writtenRegs, writtenParts, reg_setReg])
  | ldDtVx => exact frame_of_finish h (u := s.setDt _) rfl (by simp [Frame, writtenRegs, writtenParts])
  | ldStVx => exact frame_of_finish h (u := s.setSt _) rfl (by simp [Frame, writtenRegs, writtenParts])
  | addI => exact frame_of_finish h (u := s.setI _) rfl (by simp [Frame, writtenRegs, writtenParts])
  | ldF => exact frame_of_finish h (u := s.setI _) rfl (by simp [Frame, writtenRegs, writtenParts])
  | ldB x =>
    cases hf : firstUnbacked s.cfg s.base 3 with
    | some a => exact frame_of_fault h (exec_ldB_out (firstUnbacked_some.mp hf)) (by simp [writtenParts]) (by simp [writtenParts])
    | none => exact frame_of_finish h (exec_ldB (firstUnbacked_none.mp hf)) (by simp [Frame, writtenRegs, writtenParts])
  | ldMemVx x =>
    cases hf : firstUnbacked s.cfg s.base (x.val + 1) with
    | some a => exact frame_of_fault h (exec_ldMemVx_out (firstUnbacked_some.mp hf)) (by simp [writtenParts]) (by simp [writtenParts])
    | none => exact frame_of_finish h (exec_ldMemVx (firstUnbacked_none.mp hf)) (by simp [Frame, writtenRegs, writtenParts])
  | ldVxMem x =>
    cases hf : firstUnbacked s.cfg s.base (x.val + 1) with
    | some a => exact frame_of_fault h (exec_ldVxMem_out (firstUnbacked_some.mp hf)) (by simp [writtenParts]) (by simp [writtenParts])
    | none =>
      refine frame_of_finish h (exec_ldVxMem (firstUnbacked_none.mp hf)) ?_
      refine ⟨fun r hr => ?_, by simp⟩
      have : ¬ r ≤ x := fun hle => hr (by simp [writtenRegs, hle])
      rw [reg_setRegs, loadedRegs_getElem, if_neg this]

/-- An instruction that stores nothing leaves the memory list as it is. -/
theorem exec_mem {i : Instr} {s t : State} (h : exec i s = .next t) (hp : Part.mem ∉ writtenParts i) : t.mem = s.mem := by
  have flag : ∀ {j : Instr} {x : RegIdx} {f b : Byte}, exec j s = .next t → exec j s = flagThenDest x f b s → t.mem = s.mem := by
    intro j x f b h he
    by_cases hd : DestAllowed s x
    · rw [he, flagThenDest_allowed hd, finish_eq] at h; rw [h]; rfl
    · rw [he, (flagThenDest_not_allowed hd).2, raiseFault_eq] at h; rw [h]; rfl
  cases i with
  | ldB => simp [writtenParts] at hp
  | ldMemVx => simp [writtenParts] at hp
  | ret =>
    by_cases hs : 0 < s.sp.val
    · rw [exec_ret hs, finish_eq] at h; rw [h]; rfl
    · rw [exec_ret_empty (by omega), raiseFault_eq] at h; rw [h]; rfl
  | call nnn =>
    by_cases hs : s.sp.val < s.cfg.stackDepth.val
    · rw [exec_call hs, finish_eq] at h; rw [h]; rfl
    · rw [exec_call_full (by omega), raiseFault_eq] at h; rw [h]; rfl
  | seImm x kk => rw [exec_seImm, finish_eq] at h; rw [h]; rfl
  | sneImm x kk => rw [exec_sneImm, finish_eq] at h; rw [h]; rfl
  | seReg x y => rw [exec_seReg, finish_eq] at h; rw [h]; rfl
  | sneReg x y => rw [exec_sneReg, finish_eq] at h; rw [h]; rfl
  | addImm => exact flag h rfl
  | addReg => exact flag h rfl
  | sub => exact flag h rfl
  | shr => exact flag h rfl
  | subn => exact flag h rfl
  | shl => exact flag h rfl
  | skp x =>
    by_cases hk : (s.reg x).toNat < 16
    · rw [exec_skp hk, finish_eq] at h; rw [h]; rfl
    · rw [exec_skp_no_key (by omega), raiseFault_eq] at h; rw [h]; rfl
  | sknp x =>
    by_cases hk : (s.reg x).toNat < 16
    · rw [exec_sknp hk, finish_eq] at h; rw [h]; rfl
    · rw [exec_sknp_no_key (by omega), raiseFault_eq] at h; rw [h]; rfl
  | ldVxK x =>
    cases hk : s.chosenKey with
    | none => rw [exec_ldVxK_stall hk, finish_eq] at h; rw [h]; rfl
    | some k => rw [exec_ldVxK_key hk, finish_eq] at h; rw [h]; rfl
  | drw x y n =>
    cases hf : firstUnbacked s.cfg s.base n.toNat with
    | some a => rw [exec_drw_out (firstUnbacked_some.mp hf), raiseFault_eq] at h; rw [h]; rfl
    | none => rw [exec_drw (firstUnbacked_none.mp hf), finish_eq] at h; rw [h]; rfl
  | ldVxMem x =>
    cases hf : firstUnbacked s.cfg s.base (x.val + 1) with
    | some a => rw [exec_ldVxMem_out (firstUnbacked_some.mp hf), raiseFault_eq] at h; rw [h]; rfl
    | none => rw [exec_ldVxMem (firstUnbacked_none.mp hf), finish_eq] at h; rw [h]; rfl
  | _ => cases h; rfl

end Sys2Proof.Machine
end

