-- ==== Sys2Proof/Laws/PerInstr.lean ====
section
/-! SUPPORT. Statements made per instruction, about the instruction as syntax: one lemma per constructor of Instr. -/

namespace Sys2Proof.Laws

/-- The word of a well-formed instruction that the machine has decodes to that instruction (30_encoding.md R76, R78). -/
def RoundTrip.Statement (i : Instr) : Prop :=
  ∀ c : Config, i.wf = true → i.available c = true → decode c (encode i) = .ok i

theorem RoundTrip.cls : RoundTrip.Statement .cls := fun _ _ _ => rfl

theorem RoundTrip.ret : RoundTrip.Statement .ret := fun _ _ _ => rfl

theorem RoundTrip.sys (nnn : Addr) : RoundTrip.Statement (.sys nnn) := by
  intro c hw ha
  have h1 : nnn ≠ 0x0E0#12 := by rintro rfl; exact absurd hw (by decide)
  have h2 : nnn ≠ 0x0EE#12 := by rintro rfl; exact absurd hw (by decide)
  have h3 : c.sysPolicy = .nop := by simpa [Instr.available] using ha
  simp [decode, encode, decodeFamily0, h1, h2, h3]

theorem RoundTrip.jp (nnn : Addr) : RoundTrip.Statement (.jp nnn) := by
  intro c _ _
  simp [decode, encode]

theorem RoundTrip.call (nnn : Addr) : RoundTrip.Statement (.call nnn) := by
  intro c _ _
  simp [decode, encode]

theorem RoundTrip.seImm (x : RegIdx) (kk : Byte) : RoundTrip.Statement (.seImm x kk) := by
  intro c _ _
  simp [decode, encode]

theorem RoundTrip.sneImm (x : RegIdx) (kk : Byte) : RoundTrip.Statement (.sneImm x kk) := by
  intro c _ _
  simp [decode, encode]

theorem RoundTrip.seReg (x : RegIdx) (y : RegIdx) : RoundTrip.Statement (.seReg x y) := by
  intro c _ _
  simp [decode, encode, decodeFamily59]

theorem RoundTrip.ldImm (x : RegIdx) (kk : Byte) : RoundTrip.Statement (.ldImm x kk) := by
  intro c _ _
  simp [decode, encode]

theorem RoundTrip.addImm (x : RegIdx) (kk : Byte) : RoundTrip.Statement (.addImm x kk) := by
  intro c _ _
  simp [decode, encode]

theorem RoundTrip.ldReg (x : RegIdx) (y : RegIdx) : RoundTrip.Statement (.ldReg x y) := by
  intro c _ _
  simp [decode, encode, decodeFamily8]

theorem RoundTrip.orReg (x : RegIdx) (y : RegIdx) : RoundTrip.Statement (.orReg x y) := by
  intro c _ _
  simp [decode, encode, decodeFamily8]

theorem RoundTrip.andReg (x : RegIdx) (y : RegIdx) : RoundTrip.Statement (.andReg x y) := by
  intro c _ _
  simp [decode, encode, decodeFamily8]

theorem RoundTrip.xorReg (x : RegIdx) (y : RegIdx) : RoundTrip.Statement (.xorReg x y) := by
  intro c _ _
  simp [decode, encode, decodeFamily8]

theorem RoundTrip.addReg (x : RegIdx) (y : RegIdx) : RoundTrip.Statement (.addReg x y) := by
  intro c _ _
  simp [decode, encode, decodeFamily8]

theorem RoundTrip.sub (x : RegIdx) (y : RegIdx) : RoundTrip.Statement (.sub x y) := by
  intro c _ _
  simp [decode, encode, decodeFamily8]

theorem RoundTrip.shr (x : RegIdx) (y : RegIdx) : RoundTrip.Statement (.shr x y) := by
  intro c _ _
  simp [decode, encode, decodeFamily8]

theorem RoundTrip.subn (x : RegIdx) (y : RegIdx) : RoundTrip.Statement (.subn x y) := by
  intro c _ _
  simp [decode, encode, decodeFamily8]

theorem RoundTrip.shl (x : RegIdx) (y : RegIdx) : RoundTrip.Statement (.shl x y) := by
  intro c _ _
  simp [decode, encode, decodeFamily8]

theorem RoundTrip.sneReg (x : RegIdx) (y : RegIdx) : RoundTrip.Statement (.sneReg x y) := by
  intro c _ _
  simp [decode, encode, decodeFamily59]

theorem RoundTrip.ldI (nnn : Addr) : RoundTrip.Statement (.ldI nnn) := by
  intro c _ _
  simp [decode, encode]

theorem RoundTrip.jpV0 (nnn : Addr) : RoundTrip.Statement (.jpV0 nnn) := by
  intro c _ _
  simp [decode, encode]

theorem RoundTrip.rnd (x : RegIdx) (kk : Byte) : RoundTrip.Statement (.rnd x kk) := by
  intro c _ _
  simp [decode, encode]

theorem RoundTrip.drw (x : RegIdx) (y : RegIdx) (n : Nibble) : RoundTrip.Statement (.drw x y n) := by
  intro c _ _
  simp [decode, encode]

theorem RoundTrip.skp (x : RegIdx) : RoundTrip.Statement (.skp x) := by
  intro c _ _
  simp [decode, encode, decodeFamilyE]

theorem RoundTrip.sknp (x : RegIdx) : RoundTrip.Statement (.sknp x) := by
  intro c _ _
  simp [decode, encode, decodeFamilyE]

theorem RoundTrip.ldVxDt (x : RegIdx) : RoundTrip.Statement (.ldVxDt x) := by
  intro c _ _
  simp [decode, encode, decodeFamilyF]

theorem RoundTrip.ldVxK (x : RegIdx) : RoundTrip.Statement (.ldVxK x) := by
  intro c _ _
  simp [decode, encode, decodeFamilyF]

theorem RoundTrip.ldDtVx (x : RegIdx) : RoundTrip.Statement (.ldDtVx x) := by
  intro c _ _
  simp [decode, encode, decodeFamilyF]

theorem RoundTrip.ldStVx (x : RegIdx) : RoundTrip.Statement (.ldStVx x) := by
  intro c _ _
  simp [decode, encode, decodeFamilyF]

theorem RoundTrip.addI (x : RegIdx) : RoundTrip.Statement (.addI x) := by
  intro c _ _
  simp [decode, encode, decodeFamilyF]

theorem RoundTrip.ldF (x : RegIdx) : RoundTrip.Statement (.ldF x) := by
  intro c _ _
  simp [decode, encode, decodeFamilyF]

theorem RoundTrip.ldB (x : RegIdx) : RoundTrip.Statement (.ldB x) := by
  intro c _ _
  simp [decode, encode, decodeFamilyF]

theorem RoundTrip.ldMemVx (x : RegIdx) : RoundTrip.Statement (.ldMemVx x) := by
  intro c _ _
  simp [decode, encode, decodeFamilyF]

theorem RoundTrip.ldVxMem (x : RegIdx) : RoundTrip.Statement (.ldVxMem x) := by
  intro c _ _
  simp [decode, encode, decodeFamilyF]

end Sys2Proof.Laws
end

