-- ==== Sys2Proof/Laws/Step.lean ====
section
/-! SUPPORT. What one step can do, said once; the state the execute phase starts from; and the load of a program. -/

namespace Sys2Proof.Machine

/-! ### The state in which the execute phase starts -/

@[simp] theorem enter_pc_sub (w : Word) : w + 2#16 - 2#16 = w := by
  simp

theorem fetch_backed {s : State} (h : Backed s.cfg s.pc.toNat 2) : fetch s = .ok (s.wordAt s.pc.toNat) := by
  simp only [fetch, firstUnbacked_none.mpr h]

theorem fetch_unbacked {s : State} {a : Nat} (h : LowestUnbacked s.cfg s.pc.toNat 2 a) : fetch s = .error a := by
  simp only [fetch, firstUnbacked_some.mpr h]

theorem wordAt_eq_of_same (s t : State) (hm : t.mem = s.mem) (hc : t.cfg = s.cfg) (a : Nat) : t.wordAt a = s.wordAt a := by
  simp [State.wordAt, State.byteAt, hm, hc]

/-- The next instruction depends on pc, memory and the parameters alone. -/
theorem nextInstr_congr {s t : State} (hp : t.pc = s.pc) (hm : t.mem = s.mem) (hc : t.cfg = s.cfg) (i : Instr) :
    NextInstr t i ↔ NextInstr s i := by
  simp [NextInstr, hp, hc, wordAt_eq_of_same s t hm hc]

theorem nextInstr_unique {s : State} {i j : Instr} (hi : NextInstr s i) (hj : NextInstr s j) : i = j := by
  have := hi.2.symm.trans hj.2
  injection this

/-! ### The cases of a step -/

theorem step_faulted {s : State} {r : FaultRecord} (h : s.run = .faulted r) : step s = .fault (.stopped r) := by
  simp only [step, h]

theorem step_unbacked {s : State} {a : Nat} (hr : s.run = .running) (h : LowestUnbacked s.cfg s.pc.toNat 2 a) :
    step s = .next (enterFault (.memoryOutOfRange a) s.pc none (beginTick s)) := by
  simp only [step, hr, fetch_beginTick, fetch_unbacked h]

theorem step_invalid {s : State} {e : InvalidWord} (hr : s.run = .running) (hb : Backed s.cfg s.pc.toNat 2)
    (h : decode s.cfg (s.wordAt s.pc.toNat) = .error e) :
    step s = .next (enterFault .invalidInstruction s.pc (some (s.wordAt s.pc.toNat)) (beginTick s)) := by
  simp only [step, hr, fetch_beginTick, fetch_backed hb, h]

theorem step_instr {s : State} {i : Instr} (hr : s.run = .running) (h : NextInstr s i) :
    step s = exec i (preIncrement (beginTick s)) := by
  simp only [step, hr, fetch_beginTick, fetch_backed h.1, h.2]

/-- Where a step ends: it was taken in a running state, and its fetch faulted, its decode faulted, or its instruction was
executed. -/
theorem step_cases {s t : State} (h : step s = .next t) : s.run = .running ∧
    ((∃ a, LowestUnbacked s.cfg s.pc.toNat 2 a ∧ t = enterFault (.memoryOutOfRange a) s.pc none (beginTick s)) ∨
     (Backed s.cfg s.pc.toNat 2 ∧ (∃ e, decode s.cfg (s.wordAt s.pc.toNat) = .error e) ∧
        t = enterFault .invalidInstruction s.pc (some (s.wordAt s.pc.toNat)) (beginTick s)) ∨
     (∃ i, NextInstr s i ∧ exec i (preIncrement (beginTick s)) = .next t)) := by
  cases hr : s.run with
  | faulted r => rw [step_faulted hr] at h; cases h
  | running =>
    refine ⟨rfl, ?_⟩
    by_cases hb : Backed s.cfg s.pc.toNat 2
    · cases hd : decode s.cfg (s.wordAt s.pc.toNat) with
      | error e =>
        rw [step_invalid hr hb hd] at h
        cases h
        exact Or.inr (Or.inl ⟨hb, ⟨e, rfl⟩, rfl⟩)
      | ok i =>
        rw [step_instr hr ⟨hb, hd⟩] at h
        exact Or.inr (Or.inr ⟨i, ⟨hb, hd⟩, h⟩)
    · obtain ⟨a, ha⟩ := lowestUnbacked_exists hb
      rw [step_unbacked hr ha] at h
      cases h
      exact Or.inl ⟨a, ha, rfl⟩

/-! ### Loading a program -/

theorem programBytes_marked (p : List Byte) : programBytes (0x43#8 :: 0x38#8 :: 0x50#8 :: p) = p := by
  simp [programBytes, romMarker]

theorem programBytes_plain {rom : List Byte} (h : ∀ q, rom ≠ 0x43#8 :: 0x38#8 :: 0x50#8 :: q) : programBytes rom = rom := by
  unfold programBytes
  rw [if_neg]
  intro e
  refine h (rom.drop 3) ?_
  have := List.take_append_drop 3 rom
  rw [e] at this
  exact this.symm

end Sys2Proof.Machine
end

