-- ==== Sys2Proof/Tests/Slice0.lean ====
section
/-! SUPPORT. Tests: the check on ill-formed terms, a word written out bit by bit for every constructor, the vectors of
spec/95_test_vectors.md (their ids stand in the names; the expected values are the spec's), and one witness for the
hypotheses of every statement. -/

open Sys2Proof Sys2Proof.Machine

namespace Sys2Proof.Tests

/-! ### Small states -/

/-- A value of the next state of an outcome, if it has one. -/
def ofNext {α : Type} (o : Host.Outcome State Fault Refusal) (f : State → α) : Option α :=
  match o with
  | .next t => some (f t)
  | .fault _ => none
  | .refused _ => none

/-- A value of the state after one tick that runs the word `op` placed at pc. -/
def after {α : Type} (s : State) (op : Nat) (f : State → α) : Option α := ofNext (step (s.withFetchWord 16 op)) f

/-- The reset state with some registers set. -/
def regs (l : List (RegIdx × Byte)) : State := l.foldl (fun s p => s.setReg p.1 p.2) State.reset

/-- A key pad with the listed keys in one state, the others up. -/
def pad (l : List KeyIdx) (k : KeyState) : KeyPad := Vector.ofFn fun j => if l.contains j then k else .up

/-- `s` with the inputs of its next tick supplied. -/
def given (s : State) (keys : KeyPad) (rand : Byte) (choice : Nat) : State :=
  { s with inputs := [{ keys := keys, rand := rand, keyChoice := choice }] }

/-- The next step of `s` runs `i`. -/
def runs (s : State) (i : Instr) : Bool :=
  decide (firstUnbacked s.cfg s.pc.toNat 2 = none) && decide (decode s.cfg (s.wordAt s.pc.toNat) = .ok i)

theorem nextInstr_of_runs {s : State} {i : Instr} (h : runs s i = true) : NextInstr s i := by
  simp only [runs, Bool.and_eq_true, decide_eq_true_eq] at h
  exact ⟨firstUnbacked_none.mp h.1, h.2⟩

theorem exists_next {o : Host.Outcome State Fault Refusal} (P : State → Bool) (h : ofNext o P = some true) :
    ∃ t, o = .next t ∧ P t = true := by
  cases o with
  | next t => exact ⟨t, rfl, by simpa [ofNext] using h⟩
  | fault => cases h
  | refused => cases h

theorem backed_of {c : Config} {base n : Nat} (h : firstUnbacked c base n = none) : Backed c base n := firstUnbacked_none.mp h

theorem lowest_of {c : Config} {base n a : Nat} (h : firstUnbacked c base n = some a) : LowestUnbacked c base n a :=
  firstUnbacked_some.mp h

/-- The hardware under the other value of each policy. -/
def nopSys : Config := { Config.hardware with sysPolicy := .nop }
def faultVf : Config := { Config.hardware with vfDest := .fault }
def loose59 : Config := { Config.hardware with decode59 := .ignoreLowNibble }

/-- The hardware with other values of the parameters that R8 gives one value. -/
def moved : Config := { Config.hardware with programStart := 0x300#16, fontBase := 0x100, glyphSize := 5, stackDepth := 1 }

/-! ### Well-formedness: the ill-formed terms are refused -/

theorem test_wf_refuses_sys_cls : (Instr.sys 0x0E0#12).wf = false := by decide
theorem test_wf_refuses_sys_ret : (Instr.sys 0x0EE#12).wf = false := by decide
theorem test_wf_takes_sys : (Instr.sys 0x123#12).wf = true := by decide
theorem test_available_refuses_sys : (Instr.sys 0x123#12).available Config.hardware = false := by decide
theorem test_available_takes_sys : (Instr.sys 0x123#12).available nopSys = true := by decide

/-! ### Decoding: one word of every constructor, written out bit by bit from 30_encoding.md R78 -/

theorem test_decode_cls : decodeTableWord 16 0b0000000011100000 = some (.cls) := by decide
theorem test_decode_ret : decodeTableWord 16 0b0000000011101110 = some (.ret) := by decide
theorem test_decode_jp : decodeTableWord 16 0b0001001000010011 = some (.jp 0x213#12) := by decide
theorem test_decode_call : decodeTableWord 16 0b0010001000010000 = some (.call 0x210#12) := by decide
theorem test_decode_seImm : decodeTableWord 16 0b0011001101000010 = some (.seImm 3 0x42#8) := by decide
theorem test_decode_sneImm : decodeTableWord 16 0b0100001101000010 = some (.sneImm 3 0x42#8) := by decide
theorem test_decode_seReg : decodeTableWord 16 0b0101000100100000 = some (.seReg 1 2) := by decide
theorem test_decode_ldImm : decodeTableWord 16 0b0110101000000101 = some (.ldImm 0xA 0x05#8) := by decide
theorem test_decode_addImm : decodeTableWord 16 0b0111101000010000 = some (.addImm 0xA 0x10#8) := by decide
theorem test_decode_ldReg : decodeTableWord 16 0b1000000100100000 = some (.ldReg 1 2) := by decide
theorem test_decode_orReg : decodeTableWord 16 0b1000000100100001 = some (.orReg 1 2) := by decide
theorem test_decode_andReg : decodeTableWord 16 0b1000000100100010 = some (.andReg 1 2) := by decide
theorem test_decode_xorReg : decodeTableWord 16 0b1000000100100011 = some (.xorReg 1 2) := by decide
theorem test_decode_addReg : decodeTableWord 16 0b1000000100100100 = some (.addReg 1 2) := by decide
theorem test_decode_sub : decodeTableWord 16 0b1000000100100101 = some (.sub 1 2) := by decide
theorem test_decode_shr : decodeTableWord 16 0b1000000100100110 = some (.shr 1 2) := by decide
theorem test_decode_subn : decodeTableWord 16 0b1000000100100111 = some (.subn 1 2) := by decide
theorem test_decode_shl : decodeTableWord 16 0b1000000100101110 = some (.shl 1 2) := by decide
theorem test_decode_sneReg : decodeTableWord 16 0b1001000100100000 = some (.sneReg 1 2) := by decide
theorem test_decode_ldI : decodeTableWord 16 0b1010001100000001 = some (.ldI 0x301#12) := by decide
theorem test_decode_jpV0 : decodeTableWord 16 0b1011001100000000 = some (.jpV0 0x300#12) := by decide
theorem test_decode_rnd : decodeTableWord 16 0b1100001100001111 = some (.rnd 3 0x0F#8) := by decide
theorem test_decode_drw : decodeTableWord 16 0b1101001000110101 = some (.drw 2 3 0x5#4) := by decide
theorem test_decode_skp : decodeTableWord 16 0b1110010010011110 = some (.skp 4) := by decide
theorem test_decode_sknp : decodeTableWord 16 0b1110010010100001 = some (.sknp 4) := by decide
theorem test_decode_ldVxDt : decodeTableWord 16 0b1111000100000111 = some (.ldVxDt 1) := by decide
theorem test_decode_ldVxK : decodeTableWord 16 0b1111001100001010 = some (.ldVxK 3) := by decide
theorem test_decode_ldDtVx : decodeTableWord 16 0b1111001000010101 = some (.ldDtVx 2) := by decide
theorem test_decode_ldStVx : decodeTableWord 16 0b1111001000011000 = some (.ldStVx 2) := by decide
theorem test_decode_addI : decodeTableWord 16 0b1111001000011110 = some (.addI 2) := by decide
theorem test_decode_ldF : decodeTableWord 16 0b1111010100101001 = some (.ldF 5) := by decide
theorem test_decode_ldB : decodeTableWord 16 0b1111101000110011 = some (.ldB 0xA) := by decide
theorem test_decode_ldMemVx : decodeTableWord 16 0b1111000101010101 = some (.ldMemVx 1) := by decide
theorem test_decode_ldVxMem : decodeTableWord 16 0b1111001001100101 = some (.ldVxMem 2) := by decide
theorem test_decode_sys : decode nopSys 0b0000000100100011#16 = .ok (.sys 0x123#12) := by decide
theorem test_decode_sys_invalid : decodeTableWord 16 0b0000000100100011 = none := by decide
theorem test_decode_59_loose : decode loose59 0b0101000100100001#16 = .ok (.seReg 1 2) := by decide

/-! ### Vectors of 95_test_vectors.md, sections 2 and 3: the tick and control flow -/

theorem test_E1_invalid :
    after State.reset 0x0000 (fun t => (t.run, t.pc)) = some (.faulted { kind := .invalidInstruction, address := 0x200#16, opcode := some 0x0000#16 }, 0x200#16) := by decide
theorem test_E3_sys :
    after { State.reset with cfg := nopSys } 0x0123 (fun t => (t.pc, t.status, t.run)) = some (0x202#16, some .ok, .running) := by decide
theorem test_E10_loose59 : after { State.reset with cfg := loose59 } 0x5121 (fun t => t.pc) = some 0x204#16 := by decide
theorem test_E12_timers_stand :
    after { State.reset with dt := 5#8, st := 1#8 } 0x0000 (fun t => (t.dt, t.st)) = some (4#8, 0#8) := by decide
theorem test_E13_fetch_second_byte : ofNext (step { State.reset with pc := 0xFFE#16 }) (fun t => (t.run, t.pc)) =
    some (.faulted { kind := .memoryOutOfRange 0xFFF, address := 0xFFE#16, opcode := none }, 0xFFE#16) := by decide
theorem test_C1_call :
    after { State.reset with pc := 0x204#16 } 0x2210 (fun t => (t.stack[0], t.sp, t.pc)) = some (0x206#16, 1, 0x210#16) := by decide
theorem test_C2_ret :
    after { State.reset with pc := 0x212#16, sp := 1, stack := State.reset.stack.set 0 0x206#16 } 0x00EE (fun t => (t.sp, t.pc, t.stack[0])) = some (0, 0x206#16, 0x206#16) := by decide
theorem test_C3_ret_empty :
    after State.reset 0x00EE (fun t => (t.run, t.pc)) = some (.faulted { kind := .stackUnderflow, address := 0x200#16, opcode := some 0x00EE#16 }, 0x200#16) := by decide
theorem test_C4_call_full :
    after { State.reset with sp := 15 } 0x2300 (fun t => (t.run, t.sp)) = some (.faulted { kind := .stackOverflow 15, address := 0x200#16, opcode := some 0x2300#16 }, 15) := by decide
theorem test_C5_se_imm : after (regs [(3, 0x42#8)]) 0x3342 (fun t => t.pc) = some 0x204#16 := by decide
theorem test_C6_se_imm_not : after (regs [(3, 0x41#8)]) 0x3342 (fun t => t.pc) = some 0x202#16 := by decide
theorem test_C7_sne_imm : after (regs [(3, 0x41#8)]) 0x4342 (fun t => t.pc) = some 0x204#16 := by decide
theorem test_C9_se_reg : after (regs [(1, 7#8), (2, 7#8)]) 0x5120 (fun t => t.pc) = some 0x204#16 := by decide
theorem test_C10_sne_reg : after (regs [(1, 7#8), (2, 8#8)]) 0x9120 (fun t => t.pc) = some 0x204#16 := by decide
theorem test_C12_jp_v0 : after (regs [(0, 0x04#8)]) 0xB300 (fun t => t.pc) = some 0x304#16 := by decide
theorem test_C13_jp_v0_unmasked : after (regs [(0, 0xFF#8)]) 0xBFFF (fun t => t.pc) = some 0x10FE#16 := by decide
theorem test_C14_jp_odd : after State.reset 0x1201 (fun t => t.pc) = some 0x201#16 := by decide

/-! ### Section 4: the ALU -/

theorem test_A1_ld_imm : after State.reset 0x6A05 (fun t => (t.reg 0xA, t.pc)) = some (0x05#8, 0x202#16) := by decide
theorem test_A3_add_imm : after (regs [(1, 0xFF#8)]) 0x7101 (fun t => (t.reg 1, t.reg VF)) = some (0x00#8, 1#8) := by decide
theorem test_A4_add_imm_vf : after (regs [(VF, 0xFF#8)]) 0x7F02 (fun t => t.reg VF) = some 0x01#8 := by decide
theorem test_A4f_add_imm_vf_fault :
    after { regs [(VF, 0xFF#8)] with cfg := faultVf } 0x7F02 (fun t => (t.run, t.reg VF)) = some (.faulted { kind := .undefinedResult VF, address := 0x200#16, opcode := some 0x7F02#16 }, 0xFF#8) := by decide
theorem test_A5_add_reg :
    after (regs [(1, 0xC8#8), (2, 0x64#8)]) 0x8124 (fun t => (t.reg 1, t.reg VF)) = some (0x2C#8, 1#8) := by decide
theorem test_A9_add_reg_vf :
    after (regs [(1, 0x05#8), (VF, 0xC8#8)]) 0x81F4 (fun t => (t.reg 1, t.reg VF)) = some (0xCD#8, 0#8) := by decide
theorem test_A10_sub :
    after (regs [(1, 0x0A#8), (2, 0x03#8)]) 0x8125 (fun t => (t.reg 1, t.reg VF)) = some (0x07#8, 1#8) := by decide
theorem test_A11_sub_equal :
    after (regs [(1, 5#8), (2, 5#8)]) 0x8125 (fun t => (t.reg 1, t.reg VF)) = some (0x00#8, 0#8) := by decide
theorem test_A14_subn :
    after (regs [(1, 0x03#8), (2, 0x0A#8)]) 0x8127 (fun t => (t.reg 1, t.reg VF)) = some (0x07#8, 1#8) := by decide
theorem test_A15_subn :
    after (regs [(1, 1#8), (2, 0#8)]) 0x8127 (fun t => (t.reg 1, t.reg VF)) = some (0xFF#8, 0#8) := by decide
theorem test_A16_shr :
    after (regs [(1, 0x05#8), (2, 0xFF#8)]) 0x8126 (fun t => (t.reg 1, t.reg VF)) = some (0x02#8, 1#8) := by decide
theorem test_A17_shr_vf : after (regs [(VF, 0x03#8)]) 0x8F06 (fun t => t.reg VF) = some 0x01#8 := by decide
theorem test_A18_shl : after (regs [(1, 0x81#8)]) 0x812E (fun t => (t.reg 1, t.reg VF)) = some (0x02#8, 1#8) := by decide
theorem test_A19_shl : after (regs [(1, 0x7F#8)]) 0x810E (fun t => (t.reg 1, t.reg VF)) = some (0xFE#8, 0#8) := by decide
theorem test_A21_ld_reg : after (regs [(2, 0x33#8)]) 0x8120 (fun t => t.reg 1) = some 0x33#8 := by decide
theorem test_A22_or :
    after (regs [(1, 0xF0#8), (2, 0x0F#8), (VF, 0x55#8)]) 0x8121 (fun t => (t.reg 1, t.reg VF)) = some (0xFF#8, 0x55#8) := by decide
theorem test_A23_and : after (regs [(1, 0xF0#8), (2, 0x3C#8)]) 0x8122 (fun t => t.reg 1) = some 0x30#8 := by decide
theorem test_A24_xor : after (regs [(1, 0xF0#8), (2, 0x3C#8)]) 0x8123 (fun t => t.reg 1) = some 0xCC#8 := by decide
theorem test_A26_rnd : after (given State.reset (pad [] .up) 0xA7#8 0) 0xC30F (fun t => t.reg 3) = some 0x07#8 := by decide

/-! ### Section 5: the index register and memory -/

theorem test_M1_ld_i : after State.reset 0xA300 (fun t => t.i) = some 0x300#16 := by decide
theorem test_M2_add_i :
    after { regs [(2, 0x10#8), (VF, 0x55#8)] with i := 0x300#16 } 0xF21E (fun t => (t.i, t.reg VF)) = some (0x310#16, 0x55#8) := by decide
theorem test_M3_add_i_wraps :
    after { regs [(1, 0x01#8)] with i := 0xFFFF#16 } 0xF11E (fun t => t.i) = some 0x0000#16 := by decide
theorem test_M4_ld_f : after (regs [(5, 0x0A#8)]) 0xF529 (fun t => t.i) = some 0x032#16 := by decide
theorem test_M5_ld_f_unmasked : after (regs [(1, 0xFF#8)]) 0xF129 (fun t => t.i) = some 0x4FB#16 := by decide
theorem test_M6_bcd :
    after { regs [(0xA, 0x9C#8)] with i := 0x300#16 } 0xFA33 (fun t => (t.byteAt 0x300, t.byteAt 0x301, t.byteAt 0x302, t.i)) = some (0x01#8, 0x05#8, 0x06#8, 0x300#16) := by decide
theorem test_M9_bcd_unbacked :
    after { regs [(0, 123#8)] with i := 0xFFD#16 } 0xF033 (fun t => (t.run, t.byteAt 0xFFD, t.byteAt 0xFFE)) = some (.faulted { kind := .memoryOutOfRange 0xFFF, address := 0x200#16, opcode := some 0xF033#16 }, 0#8, 0#8) := by decide
theorem test_M10_store :
    after { regs [(0, 0x11#8), (1, 0x22#8)] with i := 0x400#16 } 0xF155 (fun t => (t.byteAt 0x400, t.byteAt 0x401, t.i)) = some (0x11#8, 0x22#8, 0x400#16) := by decide
theorem test_M12_store_unbacked :
    after { regs [(0, 0x11#8)] with i := 0xFF0#16 } 0xFF55 (fun t => (t.run, t.byteAt 0xFF0)) = some (.faulted { kind := .memoryOutOfRange 0xFFF, address := 0x200#16, opcode := some 0xFF55#16 }, 0#8) := by decide
theorem test_M13_load :
    after { State.reset with i := 0x300#16, mem := [(0x300, 1#8), (0x301, 5#8), (0x302, 6#8)] } 0xF265 (fun t => (t.reg 0, t.reg 1, t.reg 2, t.reg 3)) = some (1#8, 5#8, 6#8, 0#8) := by decide
theorem test_M14_load_font : after State.reset 0xF065 (fun t => t.reg 0) = some 0xF0#8 := by decide

/-! ### Section 6: the display -/

theorem test_D1_draw_glyph :
    after { regs [(2, 6#8), (3, 1#8)] with i := 5#16 } 0xD235 (fun t => (t.fb[8], t.fb[16], t.fb[41], t.reg VF, t.status)) =
      some (0x00#8, 0x01#8, 0xC0#8, 0#8, some .framebufferChanged) := by decide
theorem test_D2_draw_wraps :
    after { regs [(1, 60#8), (2, 31#8)] with i := 0x300#16, mem := [(0x300, 0xFF#8)] } 0xD121 (fun t => (t.fb[255], t.fb[0], t.reg VF)) = some (0x0F#8, 0xF0#8, 0#8) := by decide
theorem test_D10_cls :
    after { State.reset with fb := Vector.replicate 256 0xFF#8 } 0x00E0 (fun t => (t.fb[0], t.fb[255], t.status)) = some (0#8, 0#8, some .ok) := by decide
theorem test_D5_draw_collides :
    after { State.reset with i := 0x300#16, mem := [(0x300, 0xC0#8)], fb := State.reset.fb.set 0 0x40#8 } 0xD121 (fun t => (t.fb[0], t.reg VF)) = some (0x80#8, 1#8) := by decide

/-! ### Section 7: keys and timers -/

theorem test_K1_skp_down :
    after (given (regs [(4, 7#8)]) (pad [7] .down) 0#8 0) 0xE49E (fun t => t.pc) = some 0x204#16 := by decide
theorem test_K3_skp_up :
    after (given (regs [(4, 7#8)]) (pad [] .up) 0#8 0) 0xE49E (fun t => t.pc) = some 0x202#16 := by decide
theorem test_K4_sknp_up :
    after (given (regs [(4, 7#8)]) (pad [] .up) 0#8 0) 0xE4A1 (fun t => t.pc) = some 0x204#16 := by decide
theorem test_K5_sknp_down :
    after (given (regs [(4, 7#8)]) (pad [7] .down) 0#8 0) 0xE4A1 (fun t => t.pc) = some 0x202#16 := by decide
theorem test_K6_skp_no_key :
    after (regs [(4, 0x10#8)]) 0xE49E (fun t => t.run) = some (.faulted { kind := .invalidKey 0x10#8, address := 0x200#16, opcode := some 0xE49E#16 }) := by decide
theorem test_K8_wait_pressed :
    after (given State.reset (pad [0xB] .pressed) 0#8 0) 0xF30A (fun t => (t.reg 3, t.pc)) = some (0x0B#8, 0x202#16) := by decide
theorem test_K9_wait_down :
    after (given State.reset (pad [2] .down) 0#8 0) 0xF30A (fun t => (t.reg 3, t.pc)) = some (0#8, 0x200#16) := by decide
theorem test_K11_ld_dt : after { State.reset with dt := 5#8 } 0xF107 (fun t => t.reg 1) = some 4#8 := by decide
theorem test_K12_set_dt : after (regs [(0, 3#8)]) 0xF015 (fun t => t.dt) = some 3#8 := by decide
theorem test_K13_set_st : after (regs [(0, 2#8)]) 0xF018 (fun t => (t.st, t.soundOn)) = some (2#8, true) := by decide
theorem test_K14_floor : after State.reset 0x00E0 (fun t => t.dt) = some 0#8 := by decide

/-! ### The parameters of 00_scope.md R8 with another value; the debug snapshot of 60_exceptions.md R252 -/

theorem test_font_base_moves : after { regs [(5, 5#8)] with cfg := moved } 0xF529 (fun t => (t.i, t.byteAt 0x100, t.byteAt 0x14F)) =
    some (0x119#16, 0xF0#8, 0x80#8) := by decide
theorem test_glyph_count : (Memory.resetByte { Config.hardware with glyphCount := 1 } 4,
    Memory.resetByte { Config.hardware with glyphCount := 1 } 5) = (0xF0#8, 0x00#8) := by decide
/-- R8's sizes, in the rule's own numbers, are the fields of the configuration, and State has them. -/
theorem test_sizes : Config.hardware.numRegs = 16 ∧ Config.hardware.regWidth = 8 ∧ Config.hardware.pcWidth = 16 ∧
    Config.hardware.indexWidth = 16 ∧ Config.hardware.timerWidth = 8 ∧ Config.hardware.fbBytes = 256 ∧
    Config.hardware.numKeys = 16 ∧ Config.hardware.instrWidth = 16 ∧ State.reset.v.size = 16 ∧ State.reset.fb.size = 256 ∧
    State.reset.stack.size = 15 ∧ State.reset.input.keys.size = 16 := by decide
theorem test_stack_depth_one : after { State.reset with sp := 1, cfg := moved } 0x2300 (fun t => t.run) =
    some (.faulted { kind := .stackOverflow 1, address := 0x200#16, opcode := some 0x2300#16 }) := by decide
theorem test_snapshot_cut_at_zero : (State.reset.snapshot 2 1).memory = [(0, 0xF0#8), (1, 0x90#8)] := by decide
theorem test_snapshot_cut_at_the_end : ({ State.reset with i := 0xFFE#16 }.snapshot 1 2).memory =
    [(0xFFD, 0#8), (0xFFE, 0#8)] := by decide

/-! ### Section 8: loading -/

/-- What an address reads as after construction from a ROM, if it loads. -/
def loaded (rom : List Byte) (a : Nat) : Option Byte :=
  match constructFromRom Config.hardware rom with
  | .ok s => some (s.byteAt a)
  | .error _ => none

theorem test_S4_marker_stripped : loaded [0x43#8, 0x38#8, 0x50#8, 0x6A#8, 0x05#8] 0x200 = some 0x6A#8 := by decide
theorem test_program_start_moves : (match constructFromRom moved [0x6A#8, 0x05#8] with
    | .ok s => ofNext (step s) fun t => (t.pc, t.reg 0xA)
    | .error _ => none) = some (0x302#16, 0x05#8) := by decide
theorem test_L4_no_marker : loaded [0x43#8, 0x38#8] 0x200 = some 0x43#8 := by decide
theorem test_L2_too_large : constructFromRom Config.hardware (List.replicate 3584 0#8) = .error (.loadError 3584) := by
  unfold constructFromRom
  rw [if_pos]
  · rw [List.length_replicate]
  · have : programBytes (List.replicate 3584 0#8) = List.replicate 3584 0#8 := if_neg (by rw [List.take_replicate]; decide)
    rw [this, List.length_replicate]
    decide

/-! ### Witnesses: the hypotheses of each statement are met together -/

/-- O2, O6: every kind of operand; SYS under the policy that has it, and the operand next to the one it excludes. -/
theorem witness_EncodedInstructionDecodes :
    ((Instr.drw 0xF 0 0xF#4).wf = true ∧ (Instr.drw 0xF 0 0xF#4).available Config.hardware = true) ∧
    ((Instr.sys 0x0E1#12).wf = true ∧ (Instr.sys 0x0E1#12).available nopSys = true) := by decide

/-- O3: a word of each decoding path, with the strict policy. -/
theorem witness_DecodedWordIsItsEncoding : decode Config.hardware 0x5120#16 = .ok (.seReg 1 2) ∧
    Config.hardware.decode59 = .strict ∧ decode nopSys 0x0FFF#16 = .ok (.sys 0xFFF#12) := by decide

/-- O4: each clause on both sides of its boundary. -/
theorem witness_ReservedSubOpcodesAreInvalid :
    ((0x8007 : Nat) / 4096 = 0x8 ∧ decode Config.hardware 0x8007#16 = .ok (.subn 0 0)) ∧
    ((0x8008 : Nat) / 4096 = 0x8 ∧ decode Config.hardware 0x8008#16 = .error .subOpcode8) ∧
    ((0x800E : Nat) / 4096 = 0x8 ∧ decode Config.hardware 0x800E#16 = .ok (.shl 0 0)) ∧
    ((0x800F : Nat) / 4096 = 0x8 ∧ decode Config.hardware 0x800F#16 = .error .subOpcode8) ∧
    ((0xE09F : Nat) / 4096 = 0xE ∧ decode Config.hardware 0xE09F#16 = .error .subOpcodeE) ∧
    ((0xF065 : Nat) / 4096 = 0xF ∧ decode Config.hardware 0xF065#16 = .ok (.ldVxMem 0)) ∧
    ((0xF066 : Nat) / 4096 = 0xF ∧ decode Config.hardware 0xF066#16 = .error .subOpcodeF) ∧
    ((0xDFFF : Nat) / 4096 = 0xD ∧ decode Config.hardware 0xDFFF#16 = .ok (.drw 0xF 0xF 0xF#4)) := by decide

/-- O6: the two lists of fewer than two bytes. -/
theorem witness_BytesDecodeToInstruction : ([] : List Byte).length < 2 ∧ [0x00#8].length < 2 := by decide

/-- O8: a marked ROM and one that is not, the largest program that fits and the smallest that does not. -/
theorem witness_RomIsPlacedOrRefused :
    (∃ rom p : List Byte, rom = 0x43#8 :: 0x38#8 :: 0x50#8 :: p ∧ 0x200 + p.length ≤ Config.hardware.memSize) ∧
    (∃ rom : List Byte, (∀ q, rom ≠ 0x43#8 :: 0x38#8 :: 0x50#8 :: q) ∧ 0x200 + rom.length ≤ Config.hardware.memSize) ∧
    (∃ rom : List Byte, (∀ q, rom ≠ 0x43#8 :: 0x38#8 :: 0x50#8 :: q) ∧ 0x200 + rom.length = Config.hardware.memSize) ∧
    (∃ rom : List Byte, (∀ q, rom ≠ 0x43#8 :: 0x38#8 :: 0x50#8 :: q) ∧ Config.hardware.memSize + 1 = 0x200 + rom.length) :=
  ⟨⟨_, [0x6A#8], rfl, by decide⟩, ⟨[0x43#8, 0x38#8], by simp, by decide⟩,
    ⟨List.replicate 3583 0x00#8, fun q h => absurd (congrArg (fun l => l.take 1) h) (by rw [List.take_replicate]; simp),
      by rw [List.length_replicate]; rfl⟩,
    ⟨List.replicate 3584 0x00#8, fun q h => absurd (congrArg (fun l => l.take 1) h) (by rw [List.take_replicate]; simp),
      by rw [List.length_replicate]; rfl⟩⟩

/-- The reset state with LD VA, 5 at pc. -/
def sLd : State := State.reset.withFetchWord 16 0x6A05

/-- O9, O13: with no supplied input, and with one. -/
theorem witness_StepRunsDecodedInstruction : (sLd.run = .running ∧ NextInstr sLd (.ldImm 0xA 0x05#8) ∧ sLd.inputs = []) ∧
    ∃ a rest, (given sLd (pad [3] .pressed) 1#8 0).inputs = a :: rest ∧
      NextInstr (given sLd (pad [3] .pressed) 1#8 0) (.ldImm 0xA 0x05#8) :=
  ⟨⟨rfl, nextInstr_of_runs (by decide), rfl⟩, _, _, rfl, nextInstr_of_runs (by decide)⟩

/-- O10: the second byte alone, the first byte, and the last address a fetch can start at. -/
theorem witness_FetchFaultsOutsideMemory :
    LowestUnbacked Config.hardware (0xFFE#16).toNat 2 0xFFF ∧ LowestUnbacked Config.hardware (0xFFF#16).toNat 2 0xFFF ∧
    LowestUnbacked Config.hardware (0xFFFF#16).toNat 2 0xFFFF ∧ State.reset.run = .running :=
  ⟨lowest_of (by decide), lowest_of (by decide), lowest_of (by decide), rfl⟩

/-- O11: the word 0x0000 after reset. -/
theorem witness_InvalidWordStopsTheRun : State.reset.run = .running ∧ Backed State.reset.cfg State.reset.pc.toNat 2 ∧
    decode State.reset.cfg (State.reset.wordAt State.reset.pc.toNat) = .error .family0 :=
  ⟨rfl, backed_of (by decide), by decide⟩

/-- O12: a faulted engine. -/
theorem witness_NoTickAfterFault : ∃ (s : State) (r : FaultRecord), s.run = .faulted r :=
  ⟨{ State.reset with run := .faulted { kind := .stackUnderflow, address := 0x200#16, opcode := some 0x00EE#16 } }, _, rfl⟩

/-- O14: a tick that writes neither timer, one that writes DT, one that writes ST. -/
theorem witness_TimersCountEveryTick :
    (∃ t, step sLd = .next t) ∧ (∀ x, ¬ NextInstr sLd (.ldDtVx x)) ∧ (∀ x, ¬ NextInstr sLd (.ldStVx x)) ∧
    (∃ s t x, step s = .next t ∧ NextInstr s (.ldDtVx x)) ∧ (∃ s t x, step s = .next t ∧ NextInstr s (.ldStVx x)) := by
  have h : NextInstr sLd (.ldImm 0xA 0x05#8) := nextInstr_of_runs (by decide)
  have hd : NextInstr (State.reset.withFetchWord 16 0xF215) (.ldDtVx 2) := nextInstr_of_runs (by decide)
  have hs : NextInstr (State.reset.withFetchWord 16 0xF218) (.ldStVx 2) := nextInstr_of_runs (by decide)
  refine ⟨?_, fun x e => ?_, fun x e => ?_, ⟨_, _, _, step_instr rfl hd, hd⟩, ⟨_, _, _, step_instr rfl hs, hs⟩⟩
  · exact ⟨_, step_instr rfl h⟩
  · cases nextInstr_unique h e
  · cases nextInstr_unique h e

/-- O15: a fault of the execute phase on backed bytes, and a fetch fault on a byte that is not backed. -/
theorem witness_FaultsArePrecise :
    (∃ t, step (State.reset.withFetchWord 16 0x00EE) = .next t ∧ decide (t.run ≠ .running) = true) ∧
    Backed (State.reset.withFetchWord 16 0x00EE).cfg (State.reset.withFetchWord 16 0x00EE).pc.toNat 2 ∧
    (∃ t, step { State.reset with pc := 0xFFE#16 } = .next t ∧ decide (t.run ≠ .running) = true) ∧
    ¬ Backed Config.hardware (0xFFE#16).toNat 2 :=
  ⟨exists_next _ (by decide), backed_of (by decide), exists_next _ (by decide), fun h => absurd (h 1 (by decide)) (by decide)⟩

/-- O16: the reset state meets the invariant and takes a tick. -/
theorem witness_StepKeepsInvariant : State.reset.Inv ∧ ∃ t, step State.reset = .next t ∧ true = true :=
  ⟨⟨rfl, rfl, by decide⟩, exists_next _ (by decide)⟩

/-- O17: a ROM that loads. -/
theorem witness_ResetMeetsInvariant : ∃ s, constructFromRom Config.hardware [0x6A#8, 0x05#8] = .ok s := ⟨_, rfl⟩

/-- One running tick of the word `op` in `s`, as instruction `i`. -/
def runsOk (s : State) (op : Nat) (i : Instr) : Bool :=
  runs (s.withFetchWord 16 op) i && (after s op (fun t => decide (t.run = .running)) == some true)

/-- O18, O20: one word of every arm of the statement completes. -/
theorem witness_PcAfterTick :
    (runsOk State.reset 0x1213 (.jp 0x213#12) && runsOk { State.reset with sp := 14 } 0x2210 (.call 0x210#12)
      && runsOk (regs [(0, 0xFF#8)]) 0xBFFF (.jpV0 0xFFF#12) && runsOk { State.reset with sp := 15 } 0x00EE .ret
      && runsOk State.reset 0x3342 (.seImm 3 0x42#8) && runsOk State.reset 0x4342 (.sneImm 3 0x42#8)
      && runsOk State.reset 0x5120 (.seReg 1 2) && runsOk State.reset 0x9120 (.sneReg 1 2)
      && runsOk (given State.reset (pad [] .up) 0#8 0) 0xE49E (.skp 4)
      && runsOk (given State.reset (pad [] .up) 0#8 0) 0xE4A1 (.sknp 4)
      && runsOk (given (regs [(4, 15#8)]) (pad [15] .pressed) 0#8 0) 0xE49E (.skp 4)
      && runsOk (given (regs [(4, 15#8)]) (pad [15] .down) 0#8 0) 0xE4A1 (.sknp 4)
      && runsOk (given State.reset (pad [2] .down) 0#8 0) 0xF30A (.ldVxK 3)
      && runsOk (given State.reset (pad [2] .pressed) 0#8 0) 0xF30A (.ldVxK 3) && runsOk State.reset 0xD235 (.drw 2 3 0x5#4)
      && runsOk State.reset 0x00E0 .cls && runsOk { State.reset with cfg := nopSys } 0x0123 (.sys 0x123#12)
      && runsOk State.reset 0x6A05 (.ldImm 0xA 0x05#8) && runsOk State.reset 0x7F02 (.addImm VF 0x02#8)
      && runsOk State.reset 0x8120 (.ldReg 1 2) && runsOk State.reset 0x8121 (.orReg 1 2)
      && runsOk State.reset 0x8122 (.andReg 1 2) && runsOk State.reset 0x8123 (.xorReg 1 2)
      && runsOk State.reset 0x8124 (.addReg 1 2) && runsOk State.reset 0x8125 (.sub 1 2)
      && runsOk State.reset 0x8126 (.shr 1 2) && runsOk State.reset 0x8127 (.subn 1 2) && runsOk State.reset 0x812E (.shl 1 2)
      && runsOk State.reset 0xA300 (.ldI 0x300#12) && runsOk (given State.reset (pad [] .up) 0#8 0) 0xC30F (.rnd 3 0x0F#8)
      && runsOk State.reset 0xF107 (.ldVxDt 1) && runsOk State.reset 0xF215 (.ldDtVx 2) && runsOk State.reset 0xF218 (.ldStVx 2)
      && runsOk State.reset 0xF21E (.addI 2) && runsOk State.reset 0xF529 (.ldF 5) && runsOk State.reset 0xFA33 (.ldB 0xA)
      && runsOk State.reset 0xF155 (.ldMemVx 1) && runsOk State.reset 0xF265 (.ldVxMem 2)) = true := by decide

/-- O19: LD V3, K with keys held down but none pressed. -/
theorem witness_StalledWaitRepeats : ∃ s, s.run = .running ∧ NextInstr s (.ldVxK 3) ∧
    ∀ k, (beginTick s).keyState k ≠ .pressed :=
  ⟨given (State.reset.withFetchWord 16 0xF30A) (pad [2] .down) 0#8 0, rfl, nextInstr_of_runs (by decide), by decide⟩

/-- O20: a draw and an instruction that is none (the arms of `witness_PcAfterTick` are the others). -/
theorem witness_StatusOfATick : runsOk State.reset 0xD230 (.drw 2 3 0x0#4) = true ∧ runsOk State.reset 0x00E0 .cls = true := by
  decide

/-- O21: I at the next word, x at its least value. -/
theorem witness_StoredWordIsFetchedNext : ∃ s, s.Inv ∧ s.run = .running ∧ NextInstr s (.ldMemVx 1) ∧ 1 ≤ (1 : RegIdx).val ∧
    s.i = s.pc + 2#16 ∧ Backed s.cfg s.i.toNat ((1 : RegIdx).val + 1) :=
  ⟨{ (State.reset.withFetchWord 16 0xF155) with i := 0x202#16 }, ⟨by decide, rfl, by decide⟩, rfl, nextInstr_of_runs (by decide),
    by decide, by decide, backed_of (by decide)⟩

/-- O22: the greatest word, at reset and at the last address that holds a whole word. -/
theorem witness_PlacedWordIsFetched : (State.reset.Inv ∧ Backed State.reset.cfg State.reset.pc.toNat 2 ∧ 0xFFFF < 2 ^ 16) ∧
    Backed Config.hardware (0xFFD#16).toNat 2 :=
  ⟨⟨⟨rfl, rfl, by decide⟩, backed_of (by decide), by decide⟩, backed_of (by decide)⟩

/-- O23: a tick that changes the framebuffer. -/
theorem witness_OnlyClearAndDrawChangeFramebuffer :
    ∃ t, step (State.reset.withFetchWord 16 0xD125) = .next t ∧ t.fb ≠ State.reset.fb := by
  obtain ⟨t, h, hb⟩ := exists_next (o := step (State.reset.withFetchWord 16 0xD125)) (fun t => decide (t.fb[0] = 0xF0#8))
    (by decide)
  refine ⟨t, h, fun e => ?_⟩
  have : t.fb[0] = 0xF0#8 := by simpa using hb
  rw [e] at this
  exact absurd this (by decide)

/-- O24: an instruction other than CALL and RET. -/
theorem witness_OnlyCallAndReturnUseStack : Instr.cls ≠ .ret ∧ ∀ nnn, Instr.cls ≠ .call nnn := ⟨by decide, by simp⟩

/-- O25: each clause: memory, I, DT and ST change. -/
theorem witness_WritersOfMemoryIndexAndTimers :
    (∃ t, exec (.ldMemVx 0) { regs [(0, 1#8)] with i := 0x300#16 } = .next t ∧ decide (t.mem ≠ []) = true) ∧
    (∃ t, exec (.ldF 1) (regs [(1, 1#8)]) = .next t ∧ decide (t.i ≠ State.reset.i) = true) ∧
    (∃ t, exec (.ldDtVx 1) (regs [(1, 1#8)]) = .next t ∧ decide (t.dt ≠ State.reset.dt) = true) ∧
    (∃ t, exec (.ldStVx 1) (regs [(1, 1#8)]) = .next t ∧ decide (t.st ≠ State.reset.st) = true) :=
  ⟨exists_next _ (by decide), exists_next _ (by decide), exists_next _ (by decide), exists_next _ (by decide)⟩

/-- O26: a carry changes VF. -/
theorem witness_OnlyFlagWritersChangeVF :
    ∃ t, exec (.addImm 1 0xFF#8) (regs [(1, 1#8)]) = .next t ∧ decide (t.reg VF ≠ (regs [(1, 1#8)]).reg VF) = true :=
  exists_next _ (by decide)

/-- O27: a tick; the two kinds of it are those of `witness_TimersCountEveryTick`. -/
theorem witness_SoundTimerIsNeverRead : ∃ s t, step s = .next t ∧ ∀ x, ¬ NextInstr s (.ldStVx x) :=
  ⟨sLd, witness_TimersCountEveryTick.1.choose, witness_TimersCountEveryTick.1.choose_spec, witness_TimersCountEveryTick.2.2.1⟩

/-- O29: the two targets whose second byte or first byte is not backed; a jump to itself. -/
theorem witness_JumpSetsPc :
    (State.reset.run = .running ∧ State.reset.cfg.memSize = 4095 ∧ 0xFFE ≤ (0xFFE#12).toNat ∧ 0xFFE ≤ (0xFFF#12).toNat) ∧
    NextInstr (State.reset.withFetchWord 16 0x1200) (.jp 0x200#12) ∧
    (0x200#12).toNat = (State.reset.withFetchWord 16 0x1200).pc.toNat :=
  ⟨by decide, nextInstr_of_runs (by decide), rfl⟩

/-- O31: an empty stack, and one with room for one more. -/
theorem witness_CallPushesReturnAddress : State.reset.sp.val < State.reset.cfg.stackDepth.val ∧
    ({ State.reset with sp := 14 } : State).sp.val < State.reset.cfg.stackDepth.val := by decide

/-- O32: one entry, and a full stack. -/
theorem witness_ReturnPopsAddress :
    0 < ({ State.reset with sp := 1 } : State).sp.val ∧ 0 < ({ State.reset with sp := 15 } : State).sp.val := by decide

/-- O33: a full stack, an empty one, the least and the greatest value that names no key. -/
theorem witness_StackAndKeyFaults :
    State.reset.cfg.stackDepth.val ≤ ({ State.reset with sp := 15 } : State).sp.val ∧ State.reset.sp.val = 0 ∧
    15 < ((regs [(4, 16#8)]).reg 4).toNat ∧ 15 < ((regs [(4, 255#8)]).reg 4).toNat := by decide

/-- O37 to O40: a destination other than VF, VF where it is allowed, VF where it is not. -/
theorem witness_DestAllowed : DestAllowed { State.reset with cfg := faultVf } 0xE ∧ DestAllowed State.reset VF ∧
    ¬ DestAllowed { State.reset with cfg := faultVf } VF :=
  ⟨Or.inl (by decide), Or.inr rfl, fun h => h.elim (fun h => h rfl) (fun h => by cases h)⟩

/-- O41: the policy that faults. -/
theorem witness_UndefinedResultUnderPolicy : ({ State.reset with cfg := faultVf } : State).cfg.vfDest = .fault := rfl

/-- O43: the base and the glyph size of this hardware. -/
theorem witness_IndexRegisterWrites : State.reset.cfg.fontBase = 0 ∧ State.reset.cfg.glyphSize = 5 := by decide

/-- O44 to O46: the last places where three bytes, sixteen registers and one register fit; the greatest register number. -/
theorem witness_StoresAndLoadsFit : Memory.wf State.reset.cfg State.reset.mem = true ∧
    Backed Config.hardware (0xFFC#16).toNat 3 ∧ Backed Config.hardware (0xFEF#16).toNat ((15 : RegIdx).val + 1) ∧
    Backed Config.hardware (0xFFE#16).toNat ((0 : RegIdx).val + 1) :=
  ⟨rfl, backed_of (by decide), backed_of (by decide), backed_of (by decide)⟩

/-- O47: the greatest I for the greatest register number. -/
theorem witness_StoreThenLoadRestoresRegisters : Memory.wf Config.hardware [] = true ∧
    (0xFEF#16).toNat + (15 : RegIdx).val < Config.hardware.memSize := by decide

/-- O48: each access one byte too far, and wholly outside. -/
theorem witness_UnbackedAccessFaults : LowestUnbacked Config.hardware (0xFFD#16).toNat 3 0xFFF ∧
    LowestUnbacked Config.hardware (0xFF0#16).toNat ((15 : RegIdx).val + 1) 0xFFF ∧
    LowestUnbacked Config.hardware (0x1000#16).toNat ((0 : RegIdx).val + 1) 0x1000 ∧
    LowestUnbacked Config.hardware (0xFFC#16).toNat (0x5#4).toNat 0xFFF :=
  ⟨lowest_of (by decide), lowest_of (by decide), lowest_of (by decide), lowest_of (by decide)⟩

/-- O49: the last byte of the font with one register, the whole reach of sixteen registers, and no rows at all. -/
theorem witness_FontIsWritable : Memory.wf Config.hardware [] = true ∧ 80 ≤ Config.hardware.memSize ∧
    ((0x04F#16).toNat + (0 : RegIdx).val ≤ 0x04F ∧ (0x1#4).toNat ≤ (0 : RegIdx).val + 1) ∧
    ((0x040#16).toNat + (15 : RegIdx).val ≤ 0x04F ∧ (0xF#4).toNat ≤ (15 : RegIdx).val + 1) ∧
    (0x0#4).toNat ≤ (0 : RegIdx).val + 1 := by decide

/-- O51: no rows at an address that is not backed; the greatest height at the last place where it fits. -/
theorem witness_DrawChangesSpannedBytes : Backed Config.hardware (0xFFFF#16).toNat (0x0#4).toNat ∧
    Backed Config.hardware (0xFF0#16).toNat (0xF#4).toNat :=
  ⟨backed_of (by decide), backed_of (by decide)⟩

/-- O52, O53: a draw that answers, on a clear framebuffer, of a sprite with a 1 bit (glyph 0) and of one without (0x50 and up); the
second draw starts from the state the first one left. -/
theorem witness_DrawTwiceRestores : (∃ t, exec (.drw 1 2 0x5#4) State.reset = .next t ∧
      decide (t.reg 1 = State.reset.reg 1 ∧ t.reg 2 = State.reset.reg 2 ∧ t.mem = State.reset.mem ∧ t.i = State.reset.i ∧
        t.cfg = State.reset.cfg) = true) ∧
    Backed State.reset.cfg State.reset.i.toNat (0x5#4).toNat ∧ (∀ b, fbByte State.reset.fb b = 0x00#8) ∧
    (∃ t, exec (.drw 1 2 0x5#4) { State.reset with i := 0x50#16 } = .next t ∧ true = true) ∧
    ∀ r, r < (0x5#4).toNat → ({ State.reset with i := 0x50#16 } : State).byteAt (0x50 + r) = 0x00#8 :=
  ⟨exists_next _ (by decide), backed_of (by decide), fun b => by simp [fbByte, State.reset, State.construct],
    exists_next _ (by decide), by decide⟩

/-- O54: each of its instructions answers. -/
theorem witness_IndexInstructionsWriteOnlyWhatTheyName : Memory.wf State.reset.cfg State.reset.mem = true ∧
    ((ofNext (exec (.ldI 0x300#12) State.reset) fun _ => true) = some true ∧
    (ofNext (exec (.addI 1) State.reset) fun _ => true) = some true ∧
    (ofNext (exec (.ldF 1) State.reset) fun _ => true) = some true ∧
    (ofNext (exec (.ldB 1) State.reset) fun _ => true) = some true ∧
    (ofNext (exec (.ldMemVx 15) State.reset) fun _ => true) = some true ∧
    (ofNext (exec (.ldVxMem 15) State.reset) fun _ => true) = some true ∧
    (ofNext (exec (.drw 1 2 0xF#4) State.reset) fun _ => true) = some true) := by decide

/-- O55: the greatest register value that names a key. -/
theorem witness_KeyTestsSkip : ((regs [(4, 15#8)]).reg 4).toNat < 16 ∧ (State.reset.reg 4).toNat < 16 := by decide

/-- O57, O58: a pressed key; keys held and up but none pressed. -/
theorem witness_WaitForKeyTakesPressedKey :
    (∃ s : State, ∃ k : KeyIdx, s.input.keys[k.val] = .pressed) ∧
    (∃ s : State, ∀ k : KeyIdx, s.input.keys[k.val] ≠ .pressed) :=
  ⟨⟨{ State.reset with input := { keys := pad [15] .pressed, rand := 0#8, keyChoice := 0 } }, 15, by decide⟩,
    ⟨{ State.reset with input := { keys := pad [2] .down, rand := 0#8, keyChoice := 0 } }, by decide⟩⟩

end Sys2Proof.Tests
end

/-! The statements of 10_state.md: the state after reset, the program counter after a tick, who writes what, and what no
instruction reads. -/

namespace Sys2Proof.Machine

/-! ### Reset (10_state.md R37) -/

/-- Inside the font, memory at reset holds the font's bytes (70_reset_and_hazards.md R262). -/
theorem resetByte_font {c : Config} {a : Nat} (h : c.fontBase ≤ a ∧ a < c.fontBase + c.glyphCount * c.glyphSize) :
    Memory.resetByte c a = (c.font[a - c.fontBase]?).getD 0x00#8 := if_pos h

/-- Outside the font, memory at reset is zero. -/
theorem resetByte_outside_font {c : Config} {a : Nat}
    (h : ¬ (c.fontBase ≤ a ∧ a < c.fontBase + c.glyphCount * c.glyphSize)) : Memory.resetByte c a = 0x00#8 := if_neg h

theorem byteAt_construct (c : Config) (a : Nat) : (State.construct c).byteAt a = Memory.resetByte c a := rfl

theorem reset_byteAt_font {a : Nat} (h : a < 80) : State.reset.byteAt a = Config.standardFont[a] := by
  rw [State.reset, byteAt_construct, resetByte_font ⟨Nat.zero_le a, by simpa [Config.hardware] using h⟩]
  simp [Config.hardware, h]

theorem reset_byteAt_outside_font {a : Nat} (h : 80 ≤ a) : State.reset.byteAt a = 0x00#8 := by
  rw [State.reset, byteAt_construct, resetByte_outside_font]
  simpa [Config.hardware] using h

/-- Settles O7: each field is the value `State.construct` gives it, and memory reads as the font and zeros. -/
theorem resetValues : Obligations.ResetValues := by
  refine ⟨rfl, fun r => ?_, rfl, rfl, fun k h => ?_, rfl, rfl, fbByte_clear, rfl, fun a h => reset_byteAt_font h,
    fun a h => reset_byteAt_outside_font h⟩
  · exact Vector.getElem_replicate r.isLt
  · exact Vector.getElem_replicate h

theorem construct_inv (c : Config) : (State.construct c).Inv := ⟨rfl, rfl, Nat.zero_le _⟩

/-- Storing backed bytes keeps the invariant. -/
theorem inv_writeBytes {s : State} (h : s.Inv) {a : Nat} {l : List Byte} (hl : Backed s.cfg a l.length) :
    (s.writeBytes a l).Inv := by
  obtain ⟨hmem, hrun, hsp⟩ := h
  exact ⟨writeBytes_wf hmem hl, hrun, hsp⟩

/-- A ROM that loads fits in memory, and is the reset state with the program stored. -/
theorem constructFromRom_ok {c : Config} {rom : List Byte} {s : State} (h : constructFromRom c rom = .ok s) :
    Backed c c.programStart.toNat (programBytes rom).length ∧
      s = (State.construct c).writeBytes c.programStart.toNat (programBytes rom) := by
  unfold constructFromRom at h
  split at h
  · cases h
  next hfit =>
    cases h
    exact ⟨backed_iff.mpr (Or.inr (Nat.le_of_not_lt hfit)), rfl⟩

/-- Settles O17: the constructed state meets the invariant, and the program is stored over backed bytes. -/
theorem resetMeetsInvariant : Obligations.ResetMeetsInvariant := by
  refine ⟨construct_inv _, fun c rom s h => ?_⟩
  obtain ⟨hfit, rfl⟩ := constructFromRom_ok h
  exact inv_writeBytes (construct_inv c) hfit

/-! ### The components of the frame of an instruction -/

section
variable {i : Instr} {s t : State}

theorem exec_reg_written (h : exec i s = .next t) {r : RegIdx} (hr : t.reg r ≠ s.reg r) : r ∈ writtenRegs i := by
  obtain ⟨hregs, -⟩ := exec_frame h
  by_contra hn
  exact hr (hregs r hn)

theorem exec_pc (h : exec i s = .next t) (hp : Part.pc ∉ writtenParts i) : t.pc = s.pc := by
  obtain ⟨-, hpc, -⟩ := exec_frame h
  exact hpc hp

theorem exec_stack (h : exec i s = .next t) (hp : Part.stack ∉ writtenParts i) : t.stack = s.stack ∧ t.sp = s.sp := by
  obtain ⟨-, -, -, hstack, -⟩ := exec_frame h
  exact hstack hp

theorem exec_st (h : exec i s = .next t) (hp : Part.st ∉ writtenParts i) : t.st = s.st := by
  obtain ⟨-, -, -, -, -, hst, -⟩ := exec_frame h
  exact hst hp

theorem exec_fb (h : exec i s = .next t) (hp : Part.fb ∉ writtenParts i) : t.fb = s.fb := by
  obtain ⟨-, -, -, -, -, -, hfb, -⟩ := exec_frame h
  exact hfb hp

end

/-! ### Who writes the framebuffer, the stack, ST and VF -/

theorem fb_mem_writtenParts {i : Instr} (h : Part.fb ∈ writtenParts i) : i = .cls ∨ ∃ x y n, i = .drw x y n := by
  cases i with
  | cls => exact Or.inl rfl
  | drw x y n => exact Or.inr ⟨x, y, n, rfl⟩
  | _ => simp [writtenParts] at h

theorem stack_mem_writtenParts {i : Instr} (h : Part.stack ∈ writtenParts i) : i = .ret ∨ ∃ nnn, i = .call nnn := by
  cases i with
  | ret => exact Or.inl rfl
  | call nnn => exact Or.inr ⟨nnn, rfl⟩
  | _ => simp [writtenParts] at h

theorem st_mem_writtenParts {i : Instr} (h : Part.st ∈ writtenParts i) : ∃ x, i = .ldStVx x := by
  cases i with
  | ldStVx x => exact ⟨x, rfl⟩
  | _ => simp [writtenParts] at h

/-- Settles O23: a tick that faults before its execute phase keeps the framebuffer, and so does every instruction whose frame
leaves it out. -/
theorem onlyClearAndDrawChangeFramebuffer : Obligations.OnlyClearAndDrawChangeFramebuffer := by
  intro s t h hfb
  obtain ⟨-, ⟨a, -, rfl⟩ | ⟨-, -, rfl⟩ | ⟨i, hi, he⟩⟩ := step_cases h
  · exact absurd rfl hfb
  · exact absurd rfl hfb
  · have hw : Part.fb ∈ writtenParts i := Classical.byContradiction fun hn =>
      hfb ((exec_fb he hn).trans (beginTick_fb s))
    obtain rfl | ⟨x, y, n, rfl⟩ := fb_mem_writtenParts hw
    · exact Or.inl hi
    · exact Or.inr ⟨x, y, n, hi⟩

/-- VF is the greatest register number, so V0 to Vx holds VF only when x is VF. -/
theorem eq_VF_of_VF_le {x : RegIdx} (h : VF ≤ x) : x = VF := Fin.le_antisymm (Fin.le_last x) h

/-- Settles O26: VF must be among the registers of the instruction's frame. -/
theorem onlyFlagWritersChangeVF : Obligations.OnlyFlagWritersChangeVF := by
  intro i s t h hv
  have hw : VF ∈ writtenRegs i := exec_reg_written h hv
  cases i with
  | addImm | addReg | sub | shr | subn | shl | drw => simp
  | ldImm | rnd | ldReg | orReg | andReg | xorReg | ldVxDt | ldVxK =>
    obtain rfl := List.mem_singleton.mp hw
    simp
  | ldVxMem x =>
    have hle : VF ≤ x := by simpa [writtenRegs] using hw
    obtain rfl := eq_VF_of_VF_le hle
    simp
  | _ => simp [writtenRegs] at hw

/-! ### pc after a tick (10_state.md R26) -/

section
variable {i : Instr} {s t : State}

/-- A tick whose word decodes to `i` is the execute phase of `i`. -/
theorem exec_of_step (hi : NextInstr s i) (h : step s = .next t) : exec i (preIncrement (beginTick s)) = .next t := by
  obtain ⟨hr, -⟩ := step_cases h
  rwa [step_instr hr hi] at h

theorem raiseFault_not_running {kind : FaultKind} (he : exec i s = raiseFault kind s) (h : exec i s = .next t) :
    t.run ≠ .running := by
  rw [he, raiseFault_eq] at h
  simp [h]

theorem pc_of_finish {r : Status} {u : State} (he : exec i s = finish r u) (h : exec i s = .next t) : t.pc = u.pc := by
  rw [he, finish_eq] at h
  rw [h, State.setStatus_pc]

/-- An instruction that does not fault has passed its check. -/
theorem check_of_running {P : Prop} (hfault : ¬ P → ∃ kind, exec i s = raiseFault kind s) (h : exec i s = .next t)
    (hr : t.run = .running) : P := by
  by_contra hn
  obtain ⟨kind, he⟩ := hfault hn
  exact raiseFault_not_running he h hr

/-- A flag writer that does not fault leaves pc. -/
theorem pc_of_flagThenDest {x : RegIdx} {f b : Byte} (he : exec i s = flagThenDest x f b s) (h : exec i s = .next t)
    (hr : t.run = .running) : t.pc = s.pc := by
  have hd : DestAllowed s x := check_of_running (fun hn => ⟨_, he.trans (flagThenDest_not_allowed hn).2⟩) h hr
  exact pc_of_finish (u := (s.setReg VF f).setReg x b) (he.trans (flagThenDest_allowed hd)) h

/-- An access to memory that does not fault is to backed bytes. -/
theorem backed_of_running {n : Nat}
    (hout : ∀ {a}, LowestUnbacked s.cfg s.base n a → exec i s = raiseFault (.memoryOutOfRange a) s)
    (h : exec i s = .next t) (hr : t.run = .running) : Backed s.cfg s.base n :=
  check_of_running (fun hn => (lowestUnbacked_exists hn).imp' _ fun _ ha => hout ha) h hr

theorem call_pc {nnn : Addr} (h : exec (.call nnn) s = .next t) (hr : t.run = .running) : t.pc = zext16 nnn := by
  have hroom : s.sp.val < s.cfg.stackDepth.val :=
    check_of_running (fun hfull => ⟨_, exec_call_full (Nat.le_of_not_lt hfull)⟩) h hr
  exact pc_of_finish (exec_call hroom) h

theorem ret_pc (h : exec .ret s = .next t) (hr : t.run = .running) :
    ∃ hs : 0 < s.sp.val, t.pc = s.stack[s.sp.val - 1]'(by omega) := by
  have hs : 0 < s.sp.val :=
    check_of_running (fun hempty => ⟨_, exec_ret_empty (Nat.eq_zero_of_not_pos hempty)⟩) h hr
  exact ⟨hs, pc_of_finish (exec_ret hs) h⟩

theorem skp_pc {x : RegIdx} (h : exec (.skp x) s = .next t) (hr : t.run = .running) :
    ∃ hk : (s.reg x).toNat < 16, t.pc = if s.keyState ⟨(s.reg x).toNat, hk⟩ = .up then s.pc else s.pc + 2#16 := by
  have hk : (s.reg x).toNat < 16 := check_of_running (fun hno => ⟨_, exec_skp_no_key (Nat.le_of_not_lt hno)⟩) h hr
  exact ⟨hk, pc_of_finish (exec_skp hk) h⟩

theorem sknp_pc {x : RegIdx} (h : exec (.sknp x) s = .next t) (hr : t.run = .running) :
    ∃ hk : (s.reg x).toNat < 16, t.pc = if s.keyState ⟨(s.reg x).toNat, hk⟩ = .up then s.pc + 2#16 else s.pc := by
  have hk : (s.reg x).toNat < 16 := check_of_running (fun hno => ⟨_, exec_sknp_no_key (Nat.le_of_not_lt hno)⟩) h hr
  exact ⟨hk, pc_of_finish (exec_sknp hk) h⟩

/-- LD Vx, K goes on exactly when a key is pressed, and otherwise goes back to its own address (45_keys_timers.md R214). -/
theorem ldVxK_pc {x : RegIdx} (h : exec (.ldVxK x) s = .next t) :
    t.pc = if ∃ k, s.keyState k = .pressed then s.pc else s.pc - 2#16 := by
  split
  next hp =>
    obtain ⟨k, hk⟩ := hp
    obtain ⟨j, hj, -⟩ := chosenKey_some hk
    have hpc := pc_of_finish (exec_ldVxK_key hj) h
    exact hpc
  next hp => exact pc_of_finish (exec_ldVxK_stall (chosenKey_none (not_exists.mp hp))) h

end

theorem add_two_add_two (w : Word) : w + 2#16 + 2#16 = w + 4#16 := by
  rw [BitVec.add_assoc]; rfl

/-- Settles O18: by what each instruction does to pc, run from the state after the pre-increment; an instruction whose check
fails faults, and the tick does not fault. -/
theorem pcAfterTick : Obligations.PcAfterTick := by
  intro s t i hi hstep hr
  have h := exec_of_step hi hstep
  cases i with
  | cls | sys | ldImm | ldReg | orReg | andReg | xorReg | rnd | ldI | ldVxDt | ldDtVx | ldStVx | addI | ldF =>
    exact exec_pc h (by simp [writtenParts])
  | addImm | addReg | sub | shr | subn | shl => exact pc_of_flagThenDest rfl h hr
  | drw => exact pc_of_finish (exec_drw (backed_of_running exec_drw_out h hr)) h
  | ldB => exact pc_of_finish (exec_ldB (backed_of_running exec_ldB_out h hr)) h
  | ldMemVx => exact pc_of_finish (exec_ldMemVx (backed_of_running exec_ldMemVx_out h hr)) h
  | ldVxMem => exact pc_of_finish (exec_ldVxMem (backed_of_running exec_ldVxMem_out h hr)) h
  | jp nnn =>
    have hpc : t.pc = zext16 nnn := pc_of_finish (u := State.setPc _ _) rfl h
    exact hpc ▸ zext16_toNat nnn
  | jpV0 nnn =>
    have hpc : t.pc = offsetTarget nnn (preIncrement (beginTick s)) := pc_of_finish (u := State.setPc _ _) rfl h
    exact hpc ▸ offsetTarget_toNat nnn _
  | call nnn => exact call_pc h hr ▸ zext16_toNat nnn
  | ret =>
    obtain ⟨hs, hpc⟩ := ret_pc h hr
    exact ⟨hs, hpc⟩
  | seImm x kk => simpa [add_two_add_two] using pc_of_finish (exec_seImm x kk _) h
  | sneImm x kk => simpa [add_two_add_two] using pc_of_finish (exec_sneImm x kk _) h
  | seReg x y => simpa [add_two_add_two] using pc_of_finish (exec_seReg x y _) h
  | sneReg x y => simpa [add_two_add_two] using pc_of_finish (exec_sneReg x y _) h
  | skp x =>
    obtain ⟨hk, hpc⟩ := skp_pc h hr
    exact ⟨hk, by rw [← add_two_add_two]; exact hpc⟩
  | sknp x =>
    obtain ⟨hk, hpc⟩ := sknp_pc h hr
    exact ⟨hk, by rw [← add_two_add_two]; exact hpc⟩
  | ldVxK x =>
    have hpc := ldVxK_pc h
    rw [preIncrement_pc, enter_pc_sub] at hpc
    exact hpc

/-! ### What no instruction but its own reads: the stack and ST (10_state.md R27, R30) -/

/-- `s` with another stack, another SP and another ST. -/
def State.withStackSt (S : ReturnStack) (n : StackCount) (b : TimerByte) (s : State) : State :=
  { s with stack := S, sp := n, st := b }

section
variable (S : ReturnStack) (n : StackCount) (b : TimerByte) {s t : State}

theorem withStackSt_bytesAt (a k : Nat) : (s.withStackSt S n b).bytesAt a k = s.bytesAt a k :=
  bytesAt_eq_of_same s (s.withStackSt S n b) rfl rfl a k

/-- The end of a tick commutes with the replacement, given that the state it ends in does. -/
theorem withStackSt_finish {i : Instr} {r : Status} {u : State} (he : exec i s = finish r u)
    (he' : exec i (s.withStackSt S n b) = finish r (u.withStackSt S n b)) (h : exec i s = .next t) :
    exec i (s.withStackSt S n b) = .next (t.withStackSt S n b) := by
  rw [he, finish_eq] at h
  rw [he', h]
  rfl

/-- A fault commutes with the replacement. -/
theorem withStackSt_fault {i : Instr} {kind : FaultKind} (he : exec i s = raiseFault kind s)
    (he' : exec i (s.withStackSt S n b) = raiseFault kind (s.withStackSt S n b)) (h : exec i s = .next t) :
    exec i (s.withStackSt S n b) = .next (t.withStackSt S n b) := by
  rw [he, raiseFault_eq] at h
  rw [he', h]
  rfl

theorem withStackSt_flag {i : Instr} {x : RegIdx} {f r : Byte} (he : exec i s = flagThenDest x f r s)
    (he' : exec i (s.withStackSt S n b) = flagThenDest x f r (s.withStackSt S n b)) (h : exec i s = .next t) :
    exec i (s.withStackSt S n b) = .next (t.withStackSt S n b) := by
  by_cases hd : DestAllowed s x
  · have hd' : DestAllowed (s.withStackSt S n b) x := hd
    exact withStackSt_finish S n b (he.trans (flagThenDest_allowed hd)) (he'.trans (flagThenDest_allowed hd')) h
  · have hd' : ¬ DestAllowed (s.withStackSt S n b) x := hd
    exact withStackSt_fault S n b (he.trans (flagThenDest_not_allowed hd).2) (he'.trans (flagThenDest_not_allowed hd').2) h

/-- NONINTERFERENCE: an instruction other than RET, CALL and LD ST, Vx takes the same course whatever the stack, SP and ST
hold, and leaves them. -/
theorem exec_withStackSt {i : Instr} (hret : i ≠ .ret) (hcall : ∀ nnn, i ≠ .call nnn) (hst : ∀ x, i ≠ .ldStVx x)
    (h : exec i s = .next t) : exec i (s.withStackSt S n b) = .next (t.withStackSt S n b) := by
  cases i with
  | ret => exact absurd rfl hret
  | call nnn => exact absurd rfl (hcall nnn)
  | ldStVx x => exact absurd rfl (hst x)
  | cls | sys | jp | jpV0 | ldImm | ldReg | orReg | andReg | xorReg | rnd | ldI | ldVxDt | ldDtVx | addI | ldF =>
    cases h
    rfl
  | addImm | addReg | sub | shr | subn | shl => exact withStackSt_flag S n b rfl rfl h
  | seImm x kk => exact withStackSt_finish S n b (exec_seImm x kk _) (exec_seImm x kk _) h
  | sneImm x kk => exact withStackSt_finish S n b (exec_sneImm x kk _) (exec_sneImm x kk _) h
  | seReg x y => exact withStackSt_finish S n b (exec_seReg x y _) (exec_seReg x y _) h
  | sneReg x y => exact withStackSt_finish S n b (exec_sneReg x y _) (exec_sneReg x y _) h
  | skp x =>
    by_cases hk : (s.reg x).toNat < 16
    · exact withStackSt_finish S n b (exec_skp hk) (exec_skp (s := s.withStackSt S n b) hk) h
    · have hno : 15 < (s.reg x).toNat := Nat.le_of_not_lt hk
      exact withStackSt_fault S n b (exec_skp_no_key hno) (exec_skp_no_key (s := s.withStackSt S n b) hno) h
  | sknp x =>
    by_cases hk : (s.reg x).toNat < 16
    · exact withStackSt_finish S n b (exec_sknp hk) (exec_sknp (s := s.withStackSt S n b) hk) h
    · have hno : 15 < (s.reg x).toNat := Nat.le_of_not_lt hk
      exact withStackSt_fault S n b (exec_sknp_no_key hno) (exec_sknp_no_key (s := s.withStackSt S n b) hno) h
  | ldVxK x =>
    cases hk : s.chosenKey with
    | none => exact withStackSt_finish S n b (exec_ldVxK_stall hk) (exec_ldVxK_stall (s := s.withStackSt S n b) hk) h
    | some k => exact withStackSt_finish S n b (exec_ldVxK_key hk) (exec_ldVxK_key (s := s.withStackSt S n b) hk) h
  | drw x y m =>
    by_cases hb : Backed s.cfg s.base m.toNat
    · refine withStackSt_finish S n b (exec_drw hb) ?_ h
      rw [exec_drw (s := s.withStackSt S n b) hb, withStackSt_bytesAt]
      rfl
    · obtain ⟨a, ha⟩ := lowestUnbacked_exists hb
      exact withStackSt_fault S n b (exec_drw_out ha) (exec_drw_out (s := s.withStackSt S n b) ha) h
  | ldB x =>
    by_cases hb : Backed s.cfg s.base 3
    · exact withStackSt_finish S n b (exec_ldB hb) (exec_ldB (s := s.withStackSt S n b) hb) h
    · obtain ⟨a, ha⟩ := lowestUnbacked_exists hb
      exact withStackSt_fault S n b (exec_ldB_out ha) (exec_ldB_out (s := s.withStackSt S n b) ha) h
  | ldMemVx x =>
    by_cases hb : Backed s.cfg s.base (x.val + 1)
    · exact withStackSt_finish S n b (exec_ldMemVx hb) (exec_ldMemVx (s := s.withStackSt S n b) hb) h
    · obtain ⟨a, ha⟩ := lowestUnbacked_exists hb
      exact withStackSt_fault S n b (exec_ldMemVx_out ha) (exec_ldMemVx_out (s := s.withStackSt S n b) ha) h
  | ldVxMem x =>
    by_cases hb : Backed s.cfg s.base (x.val + 1)
    · exact withStackSt_finish S n b (exec_ldVxMem hb) (exec_ldVxMem (s := s.withStackSt S n b) hb) h
    · obtain ⟨a, ha⟩ := lowestUnbacked_exists hb
      exact withStackSt_fault S n b (exec_ldVxMem_out ha) (exec_ldVxMem_out (s := s.withStackSt S n b) ha) h

end

/-- An instruction other than RET and CALL takes the same course whatever the stack and SP hold. -/
theorem exec_withStack {i : Instr} (hret : i ≠ .ret) (hcall : ∀ nnn, i ≠ .call nnn) (S : ReturnStack) (n : StackCount)
    {s t : State} (h : exec i s = .next t) :
    exec i { s with stack := S, sp := n } = .next { t with stack := S, sp := n } := by
  by_cases hw : ∃ x, i = .ldStVx x
  · obtain ⟨x, rfl⟩ := hw
    cases h
    rfl
  · have hst : t.st = s.st := exec_st h fun hm => hw (st_mem_writtenParts hm)
    have ht : t.withStackSt S n s.st = { t with stack := S, sp := n } := by rw [← hst]; rfl
    exact (exec_withStackSt S n s.st hret hcall (not_exists.mp hw) h).trans (congrArg _ ht)

/-- Settles O24: the frame keeps the stack, and the instruction does not depend on it. -/
theorem onlyCallAndReturnUseStack : Obligations.OnlyCallAndReturnUseStack := by
  intro i hret hcall s S n
  obtain ⟨t, h⟩ := exec_answers i s
  have hout : Part.stack ∉ writtenParts i := fun hm =>
    (stack_mem_writtenParts hm).elim hret fun ⟨nnn, hc⟩ => hcall nnn hc
  obtain ⟨hstack, hsp⟩ := exec_stack h hout
  exact ⟨t, h, hstack, hsp, exec_withStack hret hcall S n h⟩

/-- An instruction other than LD ST, Vx takes the same course whatever ST holds, and leaves it. -/
theorem exec_withSt {i : Instr} (hst : ∀ x, i ≠ .ldStVx x) (b : TimerByte) {s t : State} (h : exec i s = .next t) :
    exec i { s with st := b } = .next { t with st := b } := by
  by_cases hw : Part.stack ∈ writtenParts i
  · obtain rfl | ⟨nnn, rfl⟩ := stack_mem_writtenParts hw
    · by_cases hs : 0 < s.sp.val
      · rw [exec_ret hs, finish_eq] at h
        subst h
        exact exec_ret (s := { s with st := b }) hs
      · have h0 := Nat.eq_zero_of_not_pos hs
        rw [exec_ret_empty h0, raiseFault_eq] at h
        subst h
        exact exec_ret_empty (s := { s with st := b }) h0
    · by_cases hs : s.sp.val < s.cfg.stackDepth.val
      · rw [exec_call hs, finish_eq] at h
        subst h
        exact exec_call (s := { s with st := b }) hs
      · have hfull := Nat.le_of_not_lt hs
        rw [exec_call_full hfull, raiseFault_eq] at h
        subst h
        exact exec_call_full (s := { s with st := b }) hfull
  · obtain ⟨hstack, hsp⟩ := exec_stack h hw
    have hret : i ≠ .ret := by rintro rfl; exact hw (by simp [writtenParts])
    have hcall : ∀ nnn, i ≠ .call nnn := by rintro nnn rfl; exact hw (by simp [writtenParts])
    have ht : t.withStackSt s.stack s.sp b = { t with st := b } := by rw [← hstack, ← hsp]; rfl
    exact (exec_withStackSt s.stack s.sp b hret hcall hst h).trans (congrArg _ ht)

/-- A tick that does not run LD ST, Vx takes the same course from another ST, which it counts down. -/
theorem step_withSt {s t : State} (hst : ∀ x, ¬ NextInstr s (.ldStVx x)) (b : TimerByte) (h : step s = .next t) :
    step { s with st := b } = .next { t with st := countDown b } := by
  obtain ⟨hr, ⟨a, ha, rfl⟩ | ⟨hb, ⟨e, hd⟩, rfl⟩ | ⟨i, hi, he⟩⟩ := step_cases h
  · exact step_unbacked (s := { s with st := b }) hr ha
  · exact step_invalid (s := { s with st := b }) hr hb hd
  · have hi' : NextInstr { s with st := b } i := (nextInstr_congr rfl rfl rfl i).mpr hi
    have hne : ∀ x, i ≠ .ldStVx x := by rintro x rfl; exact hst x hi
    exact (step_instr (s := { s with st := b }) hr hi').trans (exec_withSt hne (countDown b) he)

/-- LD ST, Vx ends in the same state whatever ST was. -/
theorem step_ldStVx_withSt {s t : State} {x : RegIdx} (hi : NextInstr s (.ldStVx x)) (b : TimerByte)
    (h : step s = .next t) : step { s with st := b } = .next t := by
  obtain ⟨hr, -⟩ := step_cases h
  have hi' : NextInstr { s with st := b } (.ldStVx x) := (nextInstr_congr rfl rfl rfl _).mpr hi
  have he := exec_of_step hi h
  exact (step_instr (s := { s with st := b }) hr hi').trans he

/-- Settles O27: LD ST, Vx overwrites ST, and every other tick counts it down without reading it. -/
theorem soundTimerIsNeverRead : Obligations.SoundTimerIsNeverRead := by
  intro s t b h
  by_cases hw : ∃ x, NextInstr s (.ldStVx x)
  · obtain ⟨x, hi⟩ := hw
    exact ⟨t.st, step_ldStVx_withSt hi b h, fun hn => absurd hi (hn x), fun _ _ => rfl⟩
  · have hn : ∀ x, ¬ NextInstr s (.ldStVx x) := not_exists.mp hw
    exact ⟨countDown b, step_withSt hn b h, fun _ => countDown_toNat b, fun x hi => absurd hi (hn x)⟩

end Sys2Proof.Machine

/-! The statements of 20_memory.md: who writes memory, I and the timers; a word placed or stored where the next tick fetches;
and a store into the font. -/

namespace Sys2Proof.Machine

/-! ### Who writes memory, I and DT (20_memory.md R50; 10_state.md R24, R29) -/

section
variable {i : Instr} {s t : State}

theorem exec_i (h : exec i s = .next t) (hp : Part.i ∉ writtenParts i) : t.i = s.i := by
  obtain ⟨-, -, hi, -⟩ := exec_frame h
  exact hi hp

theorem exec_dt (h : exec i s = .next t) (hp : Part.dt ∉ writtenParts i) : t.dt = s.dt := by
  obtain ⟨-, -, -, -, hdt, -⟩ := exec_frame h
  exact hdt hp

theorem mem_mem_writtenParts (h : Part.mem ∈ writtenParts i) : ∃ x, i = .ldB x ∨ i = .ldMemVx x := by
  cases i with
  | ldB x => exact ⟨x, Or.inl rfl⟩
  | ldMemVx x => exact ⟨x, Or.inr rfl⟩
  | _ => simp [writtenParts] at h

theorem i_mem_writtenParts (h : Part.i ∈ writtenParts i) : (∃ nnn, i = .ldI nnn) ∨ ∃ x, i = .addI x ∨ i = .ldF x := by
  cases i with
  | ldI nnn => exact Or.inl ⟨nnn, rfl⟩
  | addI x => exact Or.inr ⟨x, Or.inl rfl⟩
  | ldF x => exact Or.inr ⟨x, Or.inr rfl⟩
  | _ => simp [writtenParts] at h

theorem dt_mem_writtenParts (h : Part.dt ∈ writtenParts i) : ∃ x, i = .ldDtVx x := by
  cases i with
  | ldDtVx x => exact ⟨x, rfl⟩
  | _ => simp [writtenParts] at h

end

/-- Settles O25: a part that differs after the execute phase is one that the instruction's frame lists. -/
theorem writersOfMemoryIndexAndTimers : Obligations.WritersOfMemoryIndexAndTimers := by
  intro i s t h
  refine ⟨fun hne => mem_mem_writtenParts ?_, fun hne => i_mem_writtenParts ?_, fun hne => dt_mem_writtenParts ?_,
    fun hne => st_mem_writtenParts ?_⟩
  · exact Classical.byContradiction fun hn => hne (exec_mem h hn)
  · exact Classical.byContradiction fun hn => hne (exec_i h hn)
  · exact Classical.byContradiction fun hn => hne (exec_dt h hn)
  · exact Classical.byContradiction fun hn => hne (exec_st h hn)

/-! ### A word in memory (20_memory.md R53, R64) -/

/-- Of the bytes stored from `a`, the first two are the word at `a`, high byte first. -/
theorem wordAt_writeBytes {s : State} (hwf : Memory.wf s.cfg s.mem = true) {a : Nat} {l : List Byte}
    (hl : Backed s.cfg a l.length) (h : 1 < l.length) : (s.writeBytes a l).wordAt a = wordOfBytes l[0] l[1] := by
  have hfirst : (s.writeBytes a l).byteAt a = l[0] := byteAt_writeBytes_in hwf hl (k := 0) (Nat.zero_lt_of_lt h)
  have hsecond : (s.writeBytes a l).byteAt (a + 1) = l[1] := byteAt_writeBytes_in hwf hl h
  rw [State.wordAt, hfirst, hsecond]

theorem frame_writeBytes (s : State) (a : Nat) (l : List Byte) : Frame [] [.mem] s (s.writeBytes a l) := by simp [Frame]

theorem tableWord_toNat {w : Nat} (h : w < 2 ^ 16) : (tableWord 16 w).toNat = w := by
  simp only [tableWord, BitVec.toNat_ofNat, Nat.mod_eq_of_lt h]

/-- Settles O22: the placed word is a store of its two bytes at pc. -/
theorem placedWordIsFetched : Obligations.PlacedWordIsFetched := by
  intro s w hinv hb hw
  have hmem : Memory.wf s.cfg s.mem = true := hinv.1
  refine ⟨?_, inv_writeBytes hinv hb, frame_writeBytes s _ _, fun a hne hne' => ?_⟩
  · rw [State.withFetchWord, wordAt_writeBytes hmem hb (by simp)]
    exact (congrArg _ (wordOfBytes_bytesOfWord _)).trans (tableWord_toNat hw)
  · exact byteAt_writeBytes_out hmem hb (by simp only [List.length_cons, List.length_nil]; omega)

/-! ### LD [I], Vx: the registers in memory (43_index_memory.md R174) -/

section
variable {s : State} {x : RegIdx}

theorem backed_regsTo (hb : Backed s.cfg s.base (x.val + 1)) : Backed s.cfg s.base (s.regsTo x).length := by
  rwa [regsTo_length]

/-- After V0 to Vx are stored at I, the byte at I + r is V[r]. -/
theorem byteAt_writeBytes_regsTo (hwf : Memory.wf s.cfg s.mem = true) (hb : Backed s.cfg s.base (x.val + 1)) {r : RegIdx}
    (hr : r.val < x.val + 1) : (s.writeBytes s.base (s.regsTo x)).byteAt (s.base + r.val) = s.reg r := by
  have hlt : r.val < (s.regsTo x).length := by rwa [regsTo_length]
  rw [byteAt_writeBytes_in hwf (backed_regsTo hb) hlt, regsTo_getElem]

/-- After V0 to Vx are stored at I, the word at I is V0 and V1. -/
theorem wordAt_writeBytes_regsTo (hwf : Memory.wf s.cfg s.mem = true) (hb : Backed s.cfg s.base (x.val + 1))
    (hx : 1 ≤ x.val) : (s.writeBytes s.base (s.regsTo x)).wordAt s.base = wordOfBytes (s.reg 0) (s.reg 1) := by
  have hlt : 1 < (s.regsTo x).length := by rw [regsTo_length]; omega
  rw [wordAt_writeBytes hwf (backed_regsTo hb) hlt, regsTo_getElem, regsTo_getElem]
  rfl

end

/-- Settles O21: the store goes to I, which is the address the next tick fetches at. -/
theorem storedWordIsFetchedNext : Obligations.StoredWordIsFetchedNext := by
  rintro s x ⟨hmem, -, -⟩ hr hi hx hpc hb
  have hstep := (step_instr hr hi).trans (exec_ldMemVx (s := preIncrement (beginTick s)) hb)
  have hword : ((preIncrement (beginTick s)).writeBytes s.base (s.regsTo x)).wordAt s.i.toNat =
      wordOfBytes (s.reg 0) (s.reg 1) := wordAt_writeBytes_regsTo (s := preIncrement (beginTick s)) hmem hb hx
  rw [hpc] at hword
  exact ⟨_, hstep, hr, hpc.symm, (congrArg _ hword).trans (toNat_wordOfBytes _ _)⟩

/-! ### The font is writable (20_memory.md R52) -/

/-- What DRW makes of the framebuffer byte in which row r starts (44_display.md R192 to R194). -/
theorem drw_rowByte {x y : RegIdx} {n : Nibble} {s w : State} (h : exec (.drw x y n) s = .next w)
    (hb : Backed s.cfg s.base n.toNat) {r : Nat} (hr : r < n.toNat) :
    fbByte w.fb (rowByte (s.reg x) (s.reg y) r) =
      fbByte s.fb (rowByte (s.reg x) (s.reg y) r) ^^^ (s.byteAt (s.base + r) >>> ((s.reg x).toNat % 8)) := by
  rw [exec_drw hb, finish_eq] at h
  have hlen : (s.bytesAt s.base n.toNat).length ≤ 32 := by rw [bytesAt_length]; omega
  have hlt : r < (s.bytesAt s.base n.toNat).length := by rwa [bytesAt_length]
  obtain ⟨hrow, -⟩ := drawRows_at (px := s.reg x) (py := s.reg y) (fb := s.fb) hlen hlt
  rw [h, ← rowMask_eq, ← bytesAt_getElem s s.base n.toNat r hlt]
  exact hrow

theorem backed_mono {c : Config} {base m n : Nat} (hb : Backed c base n) (hle : m ≤ n) : Backed c base m :=
  fun k hk => hb k (Nat.lt_of_lt_of_le hk hle)

/-- A DRW at the I of a store of V0 to Vx, of at most as many rows, draws V[r] as row r. -/
theorem drw_rowByte_of_stored {x cx cy : RegIdx} {n : Nibble} {s t w : State} (hwf : Memory.wf s.cfg s.mem = true)
    (hb : Backed s.cfg s.base (x.val + 1)) (hn : n.toNat ≤ x.val + 1) (hs : exec (.ldMemVx x) s = .next t)
    (hd : exec (.drw cx cy n) t = .next w) {r : RegIdx} (hr : r.val < n.toNat) :
    fbByte w.fb (rowByte (s.reg cx) (s.reg cy) r.val) =
      fbByte s.fb (rowByte (s.reg cx) (s.reg cy) r.val) ^^^ (s.reg r >>> ((s.reg cx).toNat % 8)) := by
  rw [exec_ldMemVx hb, finish_eq] at hs
  subst hs
  have hbyte := byteAt_writeBytes_regsTo hwf hb (Nat.lt_of_lt_of_le hr hn)
  rw [← hbyte]
  exact drw_rowByte hd (backed_mono hb hn) hr

/-- Settles O49: the font is below address 80, so the store and the draw are of backed bytes. -/
theorem fontIsWritable : Obligations.FontIsWritable := by
  intro x cx cy n s hmem hfont hsize hn
  have hb : Backed s.cfg s.base (x.val + 1) := backed_iff.mpr (Or.inr (by unfold State.base; omega))
  have hstore := exec_ldMemVx hb
  have hdraw := exec_drw (s := (s.writeBytes s.base (s.regsTo x)).setStatus .ok) (x := cx) (y := cy) (backed_mono hb hn)
  exact ⟨_, hstore, rfl, _, hdraw, rfl, fun r hr => drw_rowByte_of_stored hmem hb hn hstore hdraw hr⟩

end Sys2Proof.Machine

/-! The statements of 30_encoding.md: the decoder and the encoder are inverse to each other, the words that are Invalid, the
words that a policy decides, and the bytes of an instruction. -/

namespace Sys2Proof

/-! ### From the instruction to its word and back (30_encoding.md R76, R78) -/

theorem roundTrip : ∀ i : Instr, Laws.RoundTrip.Statement i
  | .cls => Laws.RoundTrip.cls
  | .ret => Laws.RoundTrip.ret
  | .sys nnn => Laws.RoundTrip.sys nnn
  | .jp nnn => Laws.RoundTrip.jp nnn
  | .call nnn => Laws.RoundTrip.call nnn
  | .seImm x kk => Laws.RoundTrip.seImm x kk
  | .sneImm x kk => Laws.RoundTrip.sneImm x kk
  | .seReg x y => Laws.RoundTrip.seReg x y
  | .ldImm x kk => Laws.RoundTrip.ldImm x kk
  | .addImm x kk => Laws.RoundTrip.addImm x kk
  | .ldReg x y => Laws.RoundTrip.ldReg x y
  | .orReg x y => Laws.RoundTrip.orReg x y
  | .andReg x y => Laws.RoundTrip.andReg x y
  | .xorReg x y => Laws.RoundTrip.xorReg x y
  | .addReg x y => Laws.RoundTrip.addReg x y
  | .sub x y => Laws.RoundTrip.sub x y
  | .shr x y => Laws.RoundTrip.shr x y
  | .subn x y => Laws.RoundTrip.subn x y
  | .shl x y => Laws.RoundTrip.shl x y
  | .sneReg x y => Laws.RoundTrip.sneReg x y
  | .ldI nnn => Laws.RoundTrip.ldI nnn
  | .jpV0 nnn => Laws.RoundTrip.jpV0 nnn
  | .rnd x kk => Laws.RoundTrip.rnd x kk
  | .drw x y n => Laws.RoundTrip.drw x y n
  | .skp x => Laws.RoundTrip.skp x
  | .sknp x => Laws.RoundTrip.sknp x
  | .ldVxDt x => Laws.RoundTrip.ldVxDt x
  | .ldVxK x => Laws.RoundTrip.ldVxK x
  | .ldDtVx x => Laws.RoundTrip.ldDtVx x
  | .ldStVx x => Laws.RoundTrip.ldStVx x
  | .addI x => Laws.RoundTrip.addI x
  | .ldF x => Laws.RoundTrip.ldF x
  | .ldB x => Laws.RoundTrip.ldB x
  | .ldMemVx x => Laws.RoundTrip.ldMemVx x
  | .ldVxMem x => Laws.RoundTrip.ldVxMem x

/-- Settles O2, by cases on the instruction. -/
theorem encodedInstructionDecodes : Obligations.EncodedInstructionDecodes := fun c i => roundTrip i c

section
variable {c : Config} {op : Word} {i : Instr} {f : Nibble}

theorem IsWordOf.decode_eq (h : IsWordOf c i op) : decode c op = .ok i := by
  obtain ⟨hwf, hav, rfl⟩ := h
  exact encodedInstructionDecodes c i hwf hav

/-! ### The families of the decoder (30_encoding.md R76) -/

theorem fieldFamily_of_div (h : op.toNat / 4096 = f.toNat) : fieldFamily op = f :=
  fieldFamily_eq_of rfl (by rw [toNat_fieldFamily]; omega)

theorem wordNNN_of_family (h : fieldFamily op = f) : wordNNN f (fieldNNN op) = op := h ▸ wordNNN_fields op

theorem wordXKK_of_family (h : fieldFamily op = f) : wordXKK f (fieldX op) (fieldKK op) = op := h ▸ wordXKK_fields op

theorem wordXYN_of_family (h : fieldFamily op = f) : wordXYN f (fieldX op) (fieldY op) (fieldN op) = op :=
  h ▸ wordXYN_fields op

theorem decode_family0 (h : fieldFamily op = 0x0#4) : decode c op = decodeFamily0 c (fieldNNN op) := by
  simp [decode, h]

theorem decode_family5 (h : fieldFamily op = 0x5#4) :
    decode c op = decodeFamily59 c (fieldN op) (.seReg (fieldX op) (fieldY op)) := by
  simp [decode, h]

theorem decode_family8 (h : fieldFamily op = 0x8#4) :
    decode c op = decodeFamily8 (fieldX op) (fieldY op) (fieldN op) := by
  simp [decode, h]

theorem decode_family9 (h : fieldFamily op = 0x9#4) :
    decode c op = decodeFamily59 c (fieldN op) (.sneReg (fieldX op) (fieldY op)) := by
  simp [decode, h]

theorem decode_familyE (h : fieldFamily op = 0xE#4) : decode c op = decodeFamilyE (fieldX op) (fieldKK op) := by
  simp [decode, h]

theorem decode_familyF (h : fieldFamily op = 0xF#4) : decode c op = decodeFamilyF (fieldX op) (fieldKK op) := by
  simp [decode, h]

/-- The families in which every word is an instruction (30_encoding.md R84). -/
def plainFamilies : List Nat := [0x1, 0x2, 0x3, 0x4, 0x6, 0x7, 0xA, 0xB, 0xC, 0xD]

/-- A word is of a plain family, or of one of the six in which the decoder looks at more than the family. -/
theorem family_plain_or (op : Word) : op.toNat / 4096 ∈ plainFamilies ∨ fieldFamily op = 0x0#4 ∨ fieldFamily op = 0x5#4 ∨
    fieldFamily op = 0x8#4 ∨ fieldFamily op = 0x9#4 ∨ fieldFamily op = 0xE#4 ∨ fieldFamily op = 0xF#4 := by
  have hfam := toNat_fieldFamily op
  simp only [plainFamilies, List.mem_cons, List.not_mem_nil, or_false, BitVec.toNat_eq, hfam, BitVec.toNat_ofNat]
  omega

/-- A word of a plain family is the word of the instruction made of its fields. -/
theorem isWordOf_of_plain (c : Config) (h : op.toNat / 4096 ∈ plainFamilies) : ∃ i, IsWordOf c i op := by
  simp only [plainFamilies, List.mem_cons, List.not_mem_nil, or_false] at h
  obtain h | h | h | h | h | h | h | h | h | h := h
  · exact ⟨.jp (fieldNNN op), rfl, rfl, wordNNN_of_family (fieldFamily_of_div h)⟩
  · exact ⟨.call (fieldNNN op), rfl, rfl, wordNNN_of_family (fieldFamily_of_div h)⟩
  · exact ⟨.seImm (fieldX op) (fieldKK op), rfl, rfl, wordXKK_of_family (fieldFamily_of_div h)⟩
  · exact ⟨.sneImm (fieldX op) (fieldKK op), rfl, rfl, wordXKK_of_family (fieldFamily_of_div h)⟩
  · exact ⟨.ldImm (fieldX op) (fieldKK op), rfl, rfl, wordXKK_of_family (fieldFamily_of_div h)⟩
  · exact ⟨.addImm (fieldX op) (fieldKK op), rfl, rfl, wordXKK_of_family (fieldFamily_of_div h)⟩
  · exact ⟨.ldI (fieldNNN op), rfl, rfl, wordNNN_of_family (fieldFamily_of_div h)⟩
  · exact ⟨.jpV0 (fieldNNN op), rfl, rfl, wordNNN_of_family (fieldFamily_of_div h)⟩
  · exact ⟨.rnd (fieldX op) (fieldKK op), rfl, rfl, wordXKK_of_family (fieldFamily_of_div h)⟩
  · exact ⟨.drw (fieldX op) (fieldY op) (fieldN op), rfl, rfl, wordXYN_of_family (fieldFamily_of_div h)⟩

/-! ### The families that a policy decides (30_encoding.md R79, R83) -/

theorem decodeFamily0_eq (c : Config) (nnn : Addr) : decodeFamily0 c nnn =
    if nnn = 0x0E0#12 then .ok .cls else if nnn = 0x0EE#12 then .ok .ret
    else if c.sysPolicy = .nop then .ok (.sys nnn) else .error .family0 := by
  cases hp : c.sysPolicy <;> simp [decodeFamily0, hp]

theorem decodeFamily59_eq (c : Config) (n : Nibble) (i : Instr) : decodeFamily59 c n i =
    if n = 0x0#4 ∨ c.decode59 = .ignoreLowNibble then .ok i else .error .lowNibble59 := by
  cases hp : c.decode59 <;> simp [decodeFamily59, hp]

theorem decodeFamily59_ok {n : Nibble} {j : Instr} (h : decodeFamily59 c n i = .ok j) :
    j = i ∧ (c.decode59 = .strict → n = 0x0#4) := by
  rw [decodeFamily59_eq] at h
  split at h
  next hn =>
    cases h
    exact ⟨rfl, fun hs => hn.resolve_right (by simp [hs])⟩
  · cases h

/-! ### From the word to its instruction and back (30_encoding.md R77, R83) -/

/-- When a decoded instruction has the word `w`, it is enough that the strict policy makes `w` the word read. -/
theorem IsWordOf.of_strict {w : Word} (h : IsWordOf c i w) (hw : c.decode59 = .strict → w = op) :
    i.wf = true ∧ i.available c = true ∧ (c.decode59 = .strict → encode i = op) := by
  obtain ⟨hwf, hav, henc⟩ := h
  exact ⟨hwf, hav, fun hs => henc.trans (hw hs)⟩

/-- The word of a family 5 or 9 instruction has low nibble 0, which the strict policy asks for. -/
theorem wordXYN_zero_of_family (h : fieldFamily op = f) (hn : fieldN op = 0x0#4) :
    wordXYN f (fieldX op) (fieldY op) 0x0#4 = op := by
  rw [← hn]
  exact wordXYN_of_family h

end

/-- Settles O3, by cases on the family of the word: only in families 5 and 9 can another word decode to the instruction. -/
theorem decodedWordIsItsEncoding : Obligations.DecodedWordIsItsEncoding := by
  intro c op i h
  obtain hp | hf | hf | hf | hf | hf | hf := family_plain_or op
  · obtain ⟨j, hj⟩ := isWordOf_of_plain c hp
    obtain rfl : i = j := Except.ok.inj (h.symm.trans hj.decode_eq)
    exact hj.of_strict fun _ => rfl
  · rw [decode_family0 hf] at h
    exact (decodeFamily0_ok h).of_strict fun _ => wordNNN_of_family hf
  · rw [decode_family5 hf] at h
    obtain ⟨rfl, hn⟩ := decodeFamily59_ok h
    exact ⟨rfl, rfl, fun hs => wordXYN_zero_of_family hf (hn hs)⟩
  · rw [decode_family8 hf] at h
    exact (decodeFamily8_ok h).of_strict fun _ => wordXYN_of_family hf
  · rw [decode_family9 hf] at h
    obtain ⟨rfl, hn⟩ := decodeFamily59_ok h
    exact ⟨rfl, rfl, fun hs => wordXYN_zero_of_family hf (hn hs)⟩
  · rw [decode_familyE hf] at h
    exact (decodeFamilyE_ok h).of_strict fun _ => wordXKK_of_family hf
  · rw [decode_familyF hf] at h
    exact (decodeFamilyF_ok h).of_strict fun _ => wordXKK_of_family hf

/-! ### Invalid words (30_encoding.md R79 to R84) -/

/-- Settles O4: the reserved sub-opcodes of each family, and the plain families. -/
theorem reservedSubOpcodesAreInvalid : Obligations.ReservedSubOpcodesAreInvalid := by
  intro c op
  refine ⟨fun h => ?_, fun h => ?_, fun h => ?_, fun h => ?_⟩
  · rw [decode_family8 (fieldFamily_of_div h), decodeFamily8_error, toNat_fieldN]
  · rw [decode_familyE (fieldFamily_of_div h), decodeFamilyE_error, toNat_fieldKK]
  · rw [decode_familyF (fieldFamily_of_div h), decodeFamilyF_error, toNat_fieldKK]
  · exact (isWordOf_of_plain c h).imp fun _ hi => hi.decode_eq

/-- Settles O5: each built word is of its family, and the family's equation reads the policy. -/
theorem policyDecidesWords : Obligations.PolicyDecidesWords := by
  refine fun c => ⟨fun nnn => ?_, fun x y n => ⟨?_, ?_⟩⟩
  · rw [decode_family0 (fieldFamily_wordNNN _ _), fieldNNN_wordNNN, decodeFamily0_eq]
  · rw [decode_family5 (fieldFamily_wordXYN _ _ _ _), decodeFamily59_eq, fieldX_wordXYN, fieldY_wordXYN, fieldN_wordXYN]
  · rw [decode_family9 (fieldFamily_wordXYN _ _ _ _), decodeFamily59_eq, fieldX_wordXYN, fieldY_wordXYN, fieldN_wordXYN]

/-- Settles O1: the decoder evaluates to the instruction, or to the reason, of each word. -/
theorem writtenWordsDecode : Obligations.WrittenWordsDecode := by
  unfold Obligations.WrittenWordsDecode
  decide

/-! ### Bytes (30_encoding.md R71; 20_memory.md R53) -/

theorem decodeBytes_of_decode {c : Config} {a b : Byte} {i : Instr} (h : decode c (wordOfBytes a b) = .ok i)
    (rest : List Byte) : decodeBytes c (a :: b :: rest) = .ok (i, rest) := by
  simp only [decodeBytes, h]

theorem decodeBytes_of_length_lt (c : Config) : ∀ {bytes : List Byte}, bytes.length < 2 →
    decodeBytes c bytes = .error .truncated
  | [], _ => rfl
  | [_], _ => rfl
  | _ :: _ :: _, h => absurd h (by simp)

/-- Settles O6: the two bytes make the word again, and the word decodes to the instruction. -/
theorem bytesDecodeToInstruction : Obligations.BytesDecodeToInstruction := by
  refine fun c => ⟨fun i rest hwf hav => decodeBytes_of_decode ?_ rest, fun _ h => decodeBytes_of_length_lt c h⟩
  rw [wordOfBytes_bytesOfWord]
  exact encodedInstructionDecodes c i hwf hav

end Sys2Proof

/-! The statements of 40_execution_cycle.md: the phases of a tick, what it does to the timers, how it faults, a stalled wait for
a key, and the status it returns. -/

namespace Sys2Proof.Machine

/-! ### The start and the end of a tick (40_execution_cycle.md R100 to R105, R109) -/

theorem nextInput_of_supplied {s : State} {a : TickInput} {rest : List TickInput} (h : s.inputs = a :: rest) :
    s.nextInput = a := by
  simp only [State.nextInput, h]

theorem nextInput_of_none_supplied {s : State} (h : s.inputs = []) : s.nextInput = Config.freeInput s.ticks := by
  simp only [State.nextInput, h]

/-- Settles O9: the execute phase starts from the state after the inputs, the timers and the pre-increment. -/
theorem stepRunsDecodedInstruction : Obligations.StepRunsDecodedInstruction := by
  intro s i hr hi
  refine ⟨preIncrement (beginTick s), step_instr hr hi, rfl, countDown_toNat _, countDown_toNat _, fun a rest h => ?_,
    fun h => ?_, rfl, rfl, rfl, rfl, rfl, rfl, rfl, rfl, rfl, rfl⟩
  · exact ⟨nextInput_of_supplied h, congrArg List.tail h⟩
  · exact ⟨nextInput_of_none_supplied h, congrArg List.tail h⟩

/-- Settles O10: the fetch takes its fault in the state after the timer phase. -/
theorem fetchFaultsOutsideMemory : Obligations.FetchFaultsOutsideMemory := fun _ _ hr ha =>
  ⟨_, step_unbacked hr ha, rfl, rfl, rfl, rfl, rfl, rfl, rfl, rfl, rfl, countDown_toNat _, countDown_toNat _⟩

/-- Settles O12: the step looks at the run state first. -/
theorem noTickAfterFault : Obligations.NoTickAfterFault := fun _ _ h => step_faulted h

/-- Settles O13: the fetch faults, or the decoder does, or the instruction is executed; each answers a state. -/
theorem runningTickAlwaysEnds : Obligations.RunningTickAlwaysEnds := by
  intro s hr
  by_cases hb : Backed s.cfg s.pc.toNat 2
  · cases hd : decode s.cfg (s.wordAt s.pc.toNat) with
    | error e => exact ⟨_, step_invalid hr hb hd⟩
    | ok i =>
      rw [step_instr hr ⟨hb, hd⟩]
      exact exec_answers i _
  · obtain ⟨a, ha⟩ := lowestUnbacked_exists hb
    exact ⟨_, step_unbacked hr ha⟩

/-! ### The timers in a whole tick (40_execution_cycle.md R101) -/

section
variable {s t : State}

theorem step_dt (h : step s = .next t) (hn : ∀ x, ¬ NextInstr s (.ldDtVx x)) : t.dt = countDown s.dt := by
  obtain ⟨-, ⟨a, -, rfl⟩ | ⟨-, -, rfl⟩ | ⟨i, hi, he⟩⟩ := step_cases h
  · rfl
  · rfl
  · refine exec_dt he fun hw => ?_
    obtain ⟨x, rfl⟩ := dt_mem_writtenParts hw
    exact hn x hi

theorem step_st (h : step s = .next t) (hn : ∀ x, ¬ NextInstr s (.ldStVx x)) : t.st = countDown s.st := by
  obtain ⟨-, ⟨a, -, rfl⟩ | ⟨-, -, rfl⟩ | ⟨i, hi, he⟩⟩ := step_cases h
  · rfl
  · rfl
  · refine exec_st he fun hw => ?_
    obtain ⟨x, rfl⟩ := st_mem_writtenParts hw
    exact hn x hi

theorem step_ldDtVx_dt {x : RegIdx} (h : step s = .next t) (hi : NextInstr s (.ldDtVx x)) : t.dt = s.reg x := by
  cases exec_of_step hi h
  rfl

theorem step_ldStVx_st {x : RegIdx} (h : step s = .next t) (hi : NextInstr s (.ldStVx x)) : t.st = s.reg x := by
  cases exec_of_step hi h
  rfl

end

/-- Settles O14: a tick counts each timer down unless its instruction is the one that writes it. -/
theorem timersCountEveryTick : Obligations.TimersCountEveryTick := by
  refine fun s t h => ⟨fun hn => ?_, fun hn => ?_, fun _ => step_ldDtVx_dt h, fun _ => step_ldStVx_st h⟩
  · rw [step_dt h hn, countDown_toNat]
  · rw [step_st h hn, countDown_toNat]

/-! ### Precise faults (40_execution_cycle.md R108; 60_exceptions.md R240) -/

/-- The opcode in the record of a fault: the word at pc when both its bytes are backed, and none otherwise. -/
def RecordsFetchedWord (s : State) (opcode : Option Word) : Prop :=
  (Backed s.cfg s.pc.toNat 2 → opcode = some (s.wordAt s.pc.toNat)) ∧ (¬ Backed s.cfg s.pc.toNat 2 → opcode = none)

theorem recordsFetchedWord_some {s : State} (h : Backed s.cfg s.pc.toNat 2) :
    RecordsFetchedWord s (some (s.wordAt s.pc.toNat)) := ⟨fun _ => rfl, fun hn => absurd h hn⟩

theorem recordsFetchedWord_none {s : State} (h : ¬ Backed s.cfg s.pc.toNat 2) : RecordsFetchedWord s none :=
  ⟨fun hb => absurd hb h, fun _ => rfl⟩

theorem LowestUnbacked.not_backed {c : Config} {base n a : Nat} (h : LowestUnbacked c base n a) : ¬ Backed c base n := by
  obtain ⟨⟨k, hk, rfl⟩, hout, -⟩ := h
  exact fun hb => Nat.not_lt_of_le hout (hb k hk)

/-- A fault taken in the execute phase of a tick is one taken at the address the tick fetched from. -/
theorem enterFault_preIncrement_beginTick (kind : FaultKind) (s : State) :
    enterFault kind ((preIncrement (beginTick s)).pc - 2#16)
        (some ((preIncrement (beginTick s)).wordAt ((preIncrement (beginTick s)).pc - 2#16).toNat))
        (preIncrement (beginTick s)) =
      enterFault kind s.pc (some (s.wordAt s.pc.toNat)) (beginTick s) := by
  rw [preIncrement_pc, beginTick_pc, enter_pc_sub]
  rfl

/-- A tick that ends faulted took one fault in the state after the timer phase, whichever of its phases raised it. -/
theorem step_eq_enterFault {s t : State} {r : FaultRecord} (h : step s = .next t) (hf : t.run = .faulted r) :
    ∃ kind opcode, t = enterFault kind s.pc opcode (beginTick s) ∧ RecordsFetchedWord s opcode := by
  obtain ⟨hr, ⟨a, ha, ht⟩ | ⟨hb, -, ht⟩ | ⟨i, hi, he⟩⟩ := step_cases h
  · exact ⟨_, _, ht, recordsFetchedWord_none ha.not_backed⟩
  · exact ⟨_, _, ht, recordsFetchedWord_some hb⟩
  · obtain ⟨hb, -⟩ := hi
    obtain ⟨kind, ht, -⟩ := exec_fault he hr hf
    exact ⟨kind, _, ht.trans (enterFault_preIncrement_beginTick kind s), recordsFetchedWord_some hb⟩

/-- Settles O15: all that the one fault of the tick changes is pc, run and status. -/
theorem faultsArePrecise : Obligations.FaultsArePrecise := by
  intro s t r h hf
  obtain ⟨kind, opcode, rfl, hbacked, hunbacked⟩ := step_eq_enterFault h hf
  cases hf
  exact ⟨rfl, rfl, rfl, rfl, rfl, rfl, rfl, countDown_toNat _, countDown_toNat _, rfl, rfl, hbacked, hunbacked⟩

/-! ### A stalled wait for a key (40_execution_cycle.md R111; 45_keys_timers.md R214) -/

theorem step_ldVxK_stall {s : State} {x : RegIdx} (hr : s.run = .running) (hi : NextInstr s (.ldVxK x))
    (hk : ∀ k, (beginTick s).keyState k ≠ .pressed) :
    step s = .next (((preIncrement (beginTick s)).setPc s.pc).setStatus .ok) := by
  have hnone : (preIncrement (beginTick s)).chosenKey = none := chosenKey_none hk
  rw [step_instr hr hi, exec_ldVxK_stall hnone, preIncrement_pc, enter_pc_sub]
  rfl

/-- Settles O19: the stall takes the pre-increment back, so pc, and with it the next instruction, is what it was. -/
theorem stalledWaitRepeats : Obligations.StalledWaitRepeats := by
  intro s x hr hi hk
  exact ⟨_, step_ldVxK_stall hr hi hk, rfl, rfl, hr, rfl, rfl, rfl, rfl, rfl, rfl, countDown_toNat _, countDown_toNat _,
    (nextInstr_congr rfl rfl rfl _).mpr hi⟩

/-! ### The status of a tick (40_execution_cycle.md R106) -/

/-- An execute phase that does not end faulted has the status of its completion. -/
theorem status_of_running {i : Instr} {s t : State} {r : Status}
    (hends : EndsOk s (exec i s) r ∨ EndsFaulted s (exec i s)) (h : exec i s = .next t) (hr : t.run = .running) :
    t.status = some r := by
  obtain ⟨u, hu, -, hstatus, -⟩ | ⟨kind, hf, -⟩ := hends
  · rw [hu] at h
    cases h
    exact hstatus
  · exact absurd hr (raiseFault_not_running hf h)

/-- Settles O20, by the status with which each instruction completes. -/
theorem statusOfATick : Obligations.StatusOfATick := by
  intro s t i hi hstep hr
  have h := exec_of_step hi hstep
  refine ⟨?_, fun hne => ?_⟩
  · rintro ⟨x, y, n, rfl⟩
    exact status_of_running (exec_cases (.drw x y n) _) h hr
  · cases i with
    | drw x y n => exact absurd rfl (hne x y n)
    | _ => exact status_of_running (exec_cases _ _) h hr

end Sys2Proof.Machine

/-! The statements of 41_control_flow.md: the system call, the jumps, call and return, the faults of the stack and of the key
tests, and the skips. -/

namespace Sys2Proof.Machine

/-! ### SYS (41_control_flow.md R120) -/

/-- Settles O28: SYS changes nothing but the status output. -/
theorem sysIsNoOp : Obligations.SysIsNoOp := fun _ s => completes_of (u := s) rfl (frame_refl s _ _) trivial

/-! ### Instructions that only set pc (41_control_flow.md R122, R124 to R128) -/

/-- An instruction that ends by setting pc completes, and its frame is pc alone. -/
theorem completes_of_setPc {i : Instr} {s : State} {w : Word} {post : State → Prop} (he : exec i s = finish .ok (s.setPc w))
    (hp : post ((s.setPc w).setStatus .ok)) : Completes i s .ok [] [.pc] post := completes_of he (frame_setPc s w) hp

/-- With MEM_SIZE = 4095 the address 0xFFF is the first that is not backed, and the two bytes from 0xFFE or 0xFFF reach it. -/
theorem lowestUnbacked_last {c : Config} {a : Nat} (hm : c.memSize = 4095) (hlo : 0xFFE ≤ a) (hhi : a ≤ 0xFFF) :
    LowestUnbacked c a 2 0xFFF := by
  refine ⟨⟨0xFFF - a, ?_, ?_⟩, Nat.le_of_eq hm, fun k _ hout => hm ▸ hout⟩
  · omega
  · omega

/-- A tick whose word would lie at 0xFFE or 0xFFF faults in its fetch (40_execution_cycle.md R102). -/
theorem step_after_last {t : State} (hr : t.run = .running) (hm : t.cfg.memSize = 4095) (hlo : 0xFFE ≤ t.pc.toNat)
    (hhi : t.pc.toNat ≤ 0xFFF) : ∃ w, step t = .next w ∧
      w.run = .faulted { kind := .memoryOutOfRange 0xFFF, address := t.pc, opcode := none } :=
  ⟨_, step_unbacked hr (lowestUnbacked_last hm hlo hhi), rfl⟩

/-- A jump to its own address leaves pc, memory and the parameters, so the next tick finds it again. -/
theorem step_jp_self {s : State} {nnn : Addr} (hr : s.run = .running) (hi : NextInstr s (.jp nnn))
    (hself : nnn.toNat = s.pc.toNat) : ∃ t, step s = .next t ∧ t.run = .running ∧ NextInstr t (.jp nnn) := by
  have hpc : zext16 nnn = s.pc := BitVec.eq_of_toNat_eq ((zext16_toNat nnn).trans hself)
  have hnext {t : State} (hp : t.pc = s.pc) (hm : t.mem = s.mem) (hc : t.cfg = s.cfg) : NextInstr t (.jp nnn) :=
    (nextInstr_congr hp hm hc _).mpr hi
  exact ⟨_, step_instr hr hi, hr, hnext hpc rfl rfl⟩

/-- Settles O29: JP sets pc whatever the state; where the target is 0xFFE or 0xFFF the fetch after it has no word. -/
theorem jumpSetsPc : Obligations.JumpSetsPc := by
  refine fun nnn s => ⟨completes_of_setPc rfl ⟨zext16_toNat nnn, fun hr hm hlo => ?_⟩, step_jp_self,
    fun c => Laws.RoundTrip.jp nnn c rfl rfl⟩
  have hpc : (zext16 nnn).toNat = nnn.toNat := zext16_toNat nnn
  have hhi : nnn.toNat ≤ 0xFFF := Nat.le_of_lt_succ nnn.isLt
  exact step_after_last hr hm (hpc ▸ hlo) (hpc ▸ hhi)

/-- Settles O30: the sum is below 2^16, so the target has no part of it cut off. -/
theorem offsetJumpAddsV0 : Obligations.OffsetJumpAddsV0 := fun nnn s => completes_of_setPc rfl (offsetTarget_toNat nnn s)

/-- Settles O34: each skip sets pc by its comparison. -/
theorem skipsOnComparison : Obligations.SkipsOnComparison := fun x y kk s =>
  ⟨completes_of_setPc (exec_seImm x kk s) rfl, completes_of_setPc (exec_sneImm x kk s) rfl,
    completes_of_setPc (exec_seReg x y s) rfl, completes_of_setPc (exec_sneReg x y s) rfl⟩

/-! ### Call and return (41_control_flow.md R121, R123, R129, R130) -/

/-- Replacing the stack, its count and pc stays in the frame of CALL and RET. -/
theorem frame_stack_pc (s : State) (S : ReturnStack) (n : StackCount) (w : Word) :
    Frame [] [.pc, .stack] s (State.setPc { s with stack := S, sp := n } w) := by
  simp [Frame, State.reg, State.byteAt]

/-- Settles O31: the push writes the entry at SP and no other. -/
theorem callPushesReturnAddress : Obligations.CallPushesReturnAddress := by
  refine fun nnn s hroom => completes_of (exec_call hroom) (frame_stack_pc s _ _ _) ⟨zext16_toNat nnn, rfl, fun k hk => ?_⟩
  exact (Vector.getElem_set (sp_lt_entries hroom) hk).trans (if_congr eq_comm rfl rfl)

/-- Settles O32: the pop lowers SP to the entry it reads, and writes no entry. -/
theorem returnPopsAddress : Obligations.ReturnPopsAddress := fun s hs =>
  completes_of (exec_ret hs) (frame_stack_pc s s.stack _ _) ⟨rfl, Nat.sub_add_cancel hs, rfl⟩

/-- Settles O33, by the case of each instruction in which its check fails. -/
theorem stackAndKeyFaults : Obligations.StackAndKeyFaults := fun _ _ _ =>
  ⟨fun hfull => traps_of (exec_call_full hfull), fun hempty => traps_of (exec_ret_empty hempty),
    fun hno => ⟨traps_of (exec_skp_no_key hno), traps_of (exec_sknp_no_key hno)⟩⟩

end Sys2Proof.Machine

/-! The statements of 42_alu.md: the loads and the bitwise operations, the six flag writers, their fault under the policy
Fault, and the random byte. -/

namespace Sys2Proof.Machine

/-! ### Instructions that only write V[x] (42_alu.md R142, R144 to R147, R153) -/

/-- An instruction that ends by writing one register completes, and its frame is that register alone. -/
theorem completes_of_setReg {i : Instr} {s : State} {x : RegIdx} {b : Byte} {post : State → Prop}
    (he : exec i s = finish .ok (s.setReg x b)) (hp : ∀ t : State, t.reg x = b → post t) : Completes i s .ok [x] [] post :=
  completes_of he (frame_setReg s x b) (hp _ (by simp))

/-- Settles O35: the word of the claim is the instruction's encoding, so it decodes under every parameter. -/
theorem loadImmediateSetsRegister : Obligations.LoadImmediateSetsRegister := fun x kk _ =>
  ⟨completes_of_setReg rfl fun _ hx => hx, fun c => Laws.RoundTrip.ldImm x kk c rfl rfl⟩

/-- Settles O36: each of the four writes V[x] alone, and the bits of the byte written are those of the claim. -/
theorem copyAndLogic : Obligations.CopyAndLogic := by
  refine fun x y s => ⟨completes_of_setReg rfl fun _ hx => hx, completes_of_setReg rfl fun _ hx _ => ?_,
    completes_of_setReg rfl fun _ hx _ => ?_, completes_of_setReg rfl fun _ hx _ => ?_⟩
  · rw [hx, BitVec.getLsbD_or]
  · rw [hx, BitVec.getLsbD_and]
  · rw [hx, BitVec.getLsbD_xor]

/-- Settles O42: the mask is taken of the byte in the input of the tick, which is any byte. -/
theorem randomByteUnderMask : Obligations.RandomByteUnderMask := by
  refine fun x kk r s => completes_of_setReg (b := r &&& kk) rfl fun _ hx _ => ?_
  rw [hx, BitVec.getLsbD_and]

/-! ### The flags (42_alu.md R141, R143, R148 to R152) -/

theorem sumFlag_toNat (a b : Byte) : (sumFlag a b).toNat = if a.toNat + b.toNat > 255 then 1 else 0 := by simp [sumFlag]

theorem diffFlag_toNat (a b : Byte) : (diffFlag a b).toNat = if a.toNat > b.toNat then 1 else 0 := by simp [diffFlag]

theorem shrFlag_toNat (a : Byte) : (shrFlag a).toNat = if a.getLsbD 0 then 1 else 0 := by
  have hbit : a.getLsbD 0 = decide (a.toNat % 2 = 1) := by simp [BitVec.getLsbD, Nat.testBit_zero]
  simp only [hbit, shrFlag, BitVec.toNat_ofNat, decide_eq_true_eq]
  split <;> omega

theorem shlFlag_toNat (a : Byte) : (shlFlag a).toNat = if a.getLsbD 7 then 1 else 0 := by
  have hbit : a.getLsbD 7 = decide (a.toNat / 128 % 2 = 1) := by simp [BitVec.getLsbD, Nat.testBit_eq_decide_div_mod_eq]
  have hlt : a.toNat < 256 := a.isLt
  simp only [hbit, shlFlag, BitVec.toNat_ofNat, decide_eq_true_eq]
  split <;> omega

/-! ### The flag writers (42_alu.md R140) -/

section
variable {i : Instr} {s : State} {x : RegIdx} {f b : Byte}

/-- The form of ADD, SUB and SUBN: result and flag as numbers. -/
theorem completes_of_flagThenDest_toNat {result flag : Nat} (he : exec i s = flagThenDest x f b s) (h : DestAllowed s x)
    (hb : b.toNat = result) (hf : f.toNat = flag) : Completes i s .ok [x, VF] [] fun t =>
      (t.reg x).toNat = result ∧ (x ≠ VF → (t.reg VF).toNat = flag) :=
  flagThenDest_completes he h fun _ hx hVF => ⟨hx ▸ hb, fun hne => hVF hne ▸ hf⟩

theorem not_destAllowed_VF (hp : s.cfg.vfDest = .fault) : ¬ DestAllowed s VF := by simp [DestAllowed, hp]

end

/-- Settles O37, by the policy on VF as destination. -/
theorem addImmediateSetsCarry : Obligations.AddImmediateSetsCarry := fun x kk _ =>
  ⟨fun h => completes_of_flagThenDest_toNat rfl h (sumByte_toNat _ _) (sumFlag_toNat _ _),
    fun h => traps_of_flagThenDest rfl h, fun c => Laws.RoundTrip.addImm x kk c rfl rfl⟩

/-- Settles O38: sum and carry come from the registers before the instruction, so x = y and y = 0xF are no cases apart. -/
theorem addRegistersSetsCarry : Obligations.AddRegistersSetsCarry := fun _ _ _ h =>
  completes_of_flagThenDest_toNat rfl h (sumByte_toNat _ _) (sumFlag_toNat _ _)

/-- Settles O39: SUBN is SUB with minuend and subtrahend exchanged. -/
theorem subtractSetsStrictFlag : Obligations.SubtractSetsStrictFlag := fun _ _ _ h =>
  ⟨completes_of_flagThenDest_toNat rfl h (diffByte_toNat _ _) (diffFlag_toNat _ _),
    completes_of_flagThenDest_toNat rfl h (diffByte_toNat _ _) (diffFlag_toNat _ _)⟩

/-- Settles O40: the flag is the bit that the shifted byte no longer holds. -/
theorem shiftsByOne : Obligations.ShiftsByOne := fun x _ s h =>
  ⟨flagThenDest_completes rfl h fun _ hx hVF =>
      ⟨fun k => hx ▸ shrByte_getLsbD (s.reg x) k, fun hne => hVF hne ▸ shrFlag_toNat (s.reg x)⟩,
    flagThenDest_completes rfl h fun _ hx hVF =>
      ⟨fun _ hk => hx ▸ shlByte_getLsbD (s.reg x) hk, fun hne => hVF hne ▸ shlFlag_toNat (s.reg x)⟩⟩

/-- Settles O41: all six end in the one write of flag and destination, which refuses VF under this policy. -/
theorem undefinedResultUnderPolicy : Obligations.UndefinedResultUnderPolicy := fun _ _ _ hp =>
  have hno := not_destAllowed_VF hp
  ⟨traps_of_flagThenDest rfl hno, traps_of_flagThenDest rfl hno, traps_of_flagThenDest rfl hno,
    traps_of_flagThenDest rfl hno, traps_of_flagThenDest rfl hno, traps_of_flagThenDest rfl hno⟩

end Sys2Proof.Machine

/-! The statements of 43_index_memory.md: the writers of I, the decimal digits, the bulk store and the bulk load, their round
trip, their faults, and what an index-register instruction leaves unchanged. -/

namespace Sys2Proof.Machine

/-! ### The writers of I (43_index_memory.md R170 to R172) -/

/-- An instruction that ends by setting I completes, and its frame is I alone. -/
theorem completes_of_setI {i : Instr} {s : State} {w : Word} {post : State → Prop} (he : exec i s = finish .ok (s.setI w))
    (hp : post ((s.setI w).setStatus .ok)) : Completes i s .ok [] [.i] post := completes_of he (frame_setI s w) hp

/-- With base 0 and size 5 the address of every glyph is below 2^16, so none is cut off. -/
theorem glyphAddress_toNat_five {c : Config} (hbase : c.fontBase = 0) (hsize : c.glyphSize = 5) (v : Byte) :
    (glyphAddress c v).toNat = 5 * v.toNat := by
  rw [glyphAddress_toNat, hbase, hsize]
  omega

/-- Settles O43: each of the three ends by setting I, and the word it sets is the number of the claim. -/
theorem indexRegisterWrites : Obligations.IndexRegisterWrites := fun nnn x s =>
  ⟨completes_of_setI rfl (zext16_toNat nnn), completes_of_setI rfl (BitVec.toNat_ofNat _ _),
    completes_of_setI rfl ⟨glyphAddress_toNat s.cfg (s.reg x), fun hbase hsize => glyphAddress_toNat_five hbase hsize _⟩⟩

/-! ### Stores at I (43_index_memory.md R173, R174) -/

/-- `t` has the bytes `l` at the I of `s`, and every other byte of `s`. -/
def StoredAtI (s t : State) (l : List Byte) : Prop :=
  (∀ k (h : k < l.length), t.byteAt (s.base + k) = l[k]) ∧
    ∀ a, a < s.base ∨ s.base + l.length ≤ a → t.byteAt a = s.byteAt a

section
variable {i : Instr} {s t : State} {l : List Byte}

theorem storedAtI_writeBytes (hwf : Memory.wf s.cfg s.mem = true) (hb : Backed s.cfg s.base l.length) :
    StoredAtI s (s.writeBytes s.base l) l :=
  ⟨fun _ hk => byteAt_writeBytes_in hwf hb hk, fun _ ha => byteAt_writeBytes_out hwf hb ha⟩

/-- An instruction that ends by storing backed bytes at I completes, and its frame is memory alone. -/
theorem completes_of_store {post : State → Prop} (he : exec i s = finish .ok (s.writeBytes s.base l))
    (hwf : Memory.wf s.cfg s.mem = true) (hb : Backed s.cfg s.base l.length) (hp : ∀ t, StoredAtI s t l → post t) :
    Completes i s .ok [] [.mem] post :=
  completes_of he (frame_writeBytes s s.base l) (hp _ (storedAtI_writeBytes hwf hb))

/-- An instruction that stores at I when its range check passes, and traps when it fails, leaves every byte outside the range
in either case. -/
theorem byteAt_outside_store (hin : Backed s.cfg s.base l.length → exec i s = finish .ok (s.writeBytes s.base l))
    (hout : ∀ {a}, LowestUnbacked s.cfg s.base l.length a → exec i s = raiseFault (.memoryOutOfRange a) s)
    (hwf : Memory.wf s.cfg s.mem = true) (h : exec i s = .next t) {a : Nat}
    (ha : a < s.base ∨ s.base + l.length ≤ a) : t.byteAt a = s.byteAt a := by
  by_cases hb : Backed s.cfg s.base l.length
  · rw [hin hb, finish_eq] at h
    rw [h]
    exact byteAt_writeBytes_out hwf hb ha
  · obtain ⟨b, hlow⟩ := lowestUnbacked_exists hb
    rw [hout hlow, raiseFault_eq] at h
    rw [h]
    rfl

end

/-- A number not above a byte's value fits in a byte, so a decimal digit is stored whole. -/
theorem digitByte_toNat {v : Byte} {d : Nat} (hd : d ≤ v.toNat) : (BitVec.ofNat 8 d).toNat = d :=
  (BitVec.toNat_ofNat d 8).trans (Nat.mod_eq_of_lt (Nat.lt_of_le_of_lt hd v.isLt))

/-- Settles O44: the three bytes stored at I are the digits, and none of them is above V[x]. -/
theorem decimalDigitsStored : Obligations.DecimalDigitsStored := by
  refine fun x s hwf hb => completes_of_store (exec_ldB hb) hwf hb fun t ⟨hbytes, hrest⟩ => ?_
  have hhundreds : t.byteAt s.base = BitVec.ofNat 8 ((s.reg x).toNat / 100) := hbytes 0 (show 0 < 3 by decide)
  have htens : t.byteAt (s.base + 1) = BitVec.ofNat 8 ((s.reg x).toNat / 10 % 10) := hbytes 1 (show 1 < 3 by decide)
  have hones : t.byteAt (s.base + 2) = BitVec.ofNat 8 ((s.reg x).toNat % 10) := hbytes 2 (show 2 < 3 by decide)
  exact ⟨hhundreds ▸ digitByte_toNat (Nat.div_le_self _ _), htens ▸ digitByte_toNat (v := s.reg x) (by omega),
    hones ▸ digitByte_toNat (Nat.mod_le _ _), hrest⟩

/-- Settles O45: entry k of the bytes stored at I is V[k], and there are x + 1 of them. -/
theorem bulkStoreWritesRegisters : Obligations.BulkStoreWritesRegisters := by
  refine fun x s hwf hb => completes_of_store (exec_ldMemVx hb) hwf (backed_regsTo hb) fun t ⟨hbytes, hrest⟩ =>
    ⟨fun k hk => ?_, fun a ha => hrest a ?_⟩
  · have hlt : k.val < (s.regsTo x).length := regsTo_length s x ▸ Nat.lt_succ_of_le hk
    exact (hbytes k.val hlt).trans (regsTo_getElem s x hlt)
  · rwa [regsTo_length]

/-! ### The bulk load and the round trip (43_index_memory.md R175) -/

theorem frame_setRegs (s : State) (v : RegFile) : Frame (List.finRange 16) [] s (s.setRegs v) := by
  simp [Frame, List.mem_finRange]

/-- Settles O46: the register file loaded has the byte at I + k in V[k] up to x, and the old V[k] above. -/
theorem bulkLoadReadsRegisters : Obligations.BulkLoadReadsRegisters := fun x s hb =>
  completes_of (exec_ldVxMem hb) (frame_setRegs s (s.loadedRegs x)) fun k => loadedRegs_getElem s x k

theorem Frame.run_eq {regs : List RegIdx} {parts : List Part} {s t : State} (h : Frame regs parts s t)
    (hp : Part.run ∉ parts) : t.run = s.run := by
  obtain ⟨-, -, -, -, -, -, -, -, hrun, -⟩ := h
  exact hrun hp

theorem Frame.i_eq {regs : List RegIdx} {parts : List Part} {s t : State} (h : Frame regs parts s t)
    (hp : Part.i ∉ parts) : t.i = s.i := by
  obtain ⟨-, -, hi, -⟩ := h
  exact hi hp

theorem Frame.cfg_eq {regs : List RegIdx} {parts : List Part} {s t : State} (h : Frame regs parts s t) : t.cfg = s.cfg := by
  obtain ⟨-, -, -, -, -, -, -, -, -, -, -, -, hcfg⟩ := h
  exact hcfg

/-- What an address reads as depends on memory and the parameters alone. -/
theorem byteAt_eq_of_same {s t : State} (hm : t.mem = s.mem) (hc : t.cfg = s.cfg) (a : Nat) : t.byteAt a = s.byteAt a := by
  rw [State.byteAt, hm, hc, State.byteAt]

/-- Settles O47: the bulk store puts V[k] at I + k, the bulk load takes it from there, and between the two I, memory and the
parameters stay. -/
theorem storeThenLoadRestoresRegisters : Obligations.StoreThenLoadRestoresRegisters := by
  intro x s hwf hlast
  have hb : Backed s.cfg s.i.toNat (x.val + 1) := backed_iff.mpr (Or.inr hlast)
  obtain ⟨t, hstore, -, hframe, hstored, -⟩ := bulkStoreWritesRegisters x s hwf hb
  refine ⟨t, hstore, hframe.run_eq (by decide), fun u hm hi hc => ?_⟩
  have hi : u.i = s.i := hi.trans (hframe.i_eq (by decide))
  have hb : Backed u.cfg u.i.toNat (x.val + 1) := by rwa [hi, hc, hframe.cfg_eq]
  obtain ⟨w, hload, -, hframe', hloaded⟩ := bulkLoadReadsRegisters x u hb
  refine ⟨w, hload, hframe'.run_eq (by decide), fun k hk => ?_⟩
  calc w.reg k = u.byteAt (u.i.toNat + k.val) := (hloaded k).trans (if_pos hk)
    _ = t.byteAt (s.i.toNat + k.val) := by rw [hi, byteAt_eq_of_same hm hc]
    _ = s.reg k := hstored k hk

/-! ### Faults and frames (43_index_memory.md R176; 60_exceptions.md R232) -/

/-- Settles O48, by the case of each instruction in which its range check fails. -/
theorem unbackedAccessFaults : Obligations.UnbackedAccessFaults := fun _ _ _ _ _ =>
  ⟨fun h => traps_of (exec_ldB_out h), fun h => ⟨traps_of (exec_ldMemVx_out h), traps_of (exec_ldVxMem_out h)⟩,
    fun h => traps_of (exec_drw_out h)⟩

/-- LD B leaves every byte but the three at I, whether it completes or traps. -/
theorem ldB_byteAt_outside {x : RegIdx} {s t : State} (hwf : Memory.wf s.cfg s.mem = true) (h : exec (.ldB x) s = .next t)
    {a : Nat} (ha : a < s.base ∨ s.base + 3 ≤ a) : t.byteAt a = s.byteAt a :=
  byteAt_outside_store (l := bcdDigits (s.reg x)) exec_ldB exec_ldB_out hwf h ha

/-- LD [I], Vx leaves every byte but the x + 1 at I, whether it completes or traps. -/
theorem ldMemVx_byteAt_outside {x : RegIdx} {s t : State} (hwf : Memory.wf s.cfg s.mem = true)
    (h : exec (.ldMemVx x) s = .next t) {a : Nat} (ha : a < s.base ∨ s.base + (x.val + 1) ≤ a) :
    t.byteAt a = s.byteAt a := by
  have hlen : (s.regsTo x).length = x.val + 1 := regsTo_length s x
  exact byteAt_outside_store (l := s.regsTo x) (fun hb => exec_ldMemVx (hlen ▸ hb)) (fun hb => exec_ldMemVx_out (hlen ▸ hb))
    hwf h (hlen ▸ ha)

/-- Settles O54: the frames are those of `exec_frame`, which hold whatever the outcome, and only the writers of I change I. -/
theorem indexInstructionsWriteOnlyWhatTheyName : Obligations.IndexInstructionsWriteOnlyWhatTheyName := by
  refine fun nnn x y n s t => ⟨?_, fun hwf h => ⟨exec_frame h, fun _ => ldB_byteAt_outside hwf h⟩,
    fun hwf h => ⟨exec_frame h, fun _ => ldMemVx_byteAt_outside hwf h⟩, fun h => exec_frame h, fun h => exec_frame h,
    fun i h => ?_⟩
  · rintro (h | h | h)
    · exact exec_frame h
    · exact exec_frame h
    · exact exec_frame h
  · by_cases hw : Part.i ∈ writtenParts i
    · exact Or.inr (i_mem_writtenParts hw)
    · exact Or.inl (exec_i h hw)

end Sys2Proof.Machine

/-! The statements of 44_display.md: the clear, the draw byte by byte and pixel by pixel with its collision flag, and the
second draw of a sprite. -/

namespace Sys2Proof.Machine

/-! ### CLS (44_display.md R191) -/

theorem frame_setFb (s : State) (fb : FrameBuffer) : Frame [] [.fb] s (s.setFb fb) := by simp [Frame]

/-- Settles O50: the framebuffer is replaced whole, and no other part is written. -/
theorem clearZeroesFramebuffer : Obligations.ClearZeroesFramebuffer := fun s =>
  ⟨completes_of rfl (frame_setFb s _) fbByte_clear, fun c => Laws.RoundTrip.cls c rfl rfl⟩

/-! ### What DRW makes of the framebuffer and VF (44_display.md R192) -/

/-- The rows of the sprite of height n at I, the first row first. -/
def State.spriteRows (s : State) (n : Nibble) : List Byte := s.bytesAt s.base n.toNat

theorem lt_spriteRows_length (s : State) (n : Nibble) {r : Nat} : r < (s.spriteRows n).length ↔ r < n.toNat := by
  rw [State.spriteRows, bytesAt_length]

theorem spriteRows_length_le (s : State) (n : Nibble) : (s.spriteRows n).length ≤ 32 := by
  rw [State.spriteRows, bytesAt_length]
  omega

theorem spriteRows_getElem (s : State) (n : Nibble) {r : Nat} (h : r < (s.spriteRows n).length) :
    (s.spriteRows n)[r] = s.byteAt (s.base + r) := bytesAt_getElem s s.base n.toNat r h

theorem frame_setFb_setReg (s : State) (fb : FrameBuffer) (x : RegIdx) (b : Byte) :
    Frame [x] [.fb] s ((s.setFb fb).setReg x b) := by
  simp +contextual [Frame, reg_setReg]

section
variable {x y : RegIdx} {n : Nibble} {s t : State}

/-- A draw of backed rows completes, and what is said of it follows from its framebuffer and its flag. -/
theorem completes_drw {post : State → Prop} (hb : Backed s.cfg s.base n.toNat)
    (hp : ∀ t : State, t.fb = drawRows (s.reg x) (s.reg y) 0 (s.spriteRows n) s.fb →
      t.reg VF = flagByte (drawCollides (s.reg x) (s.reg y) 0 (s.spriteRows n) s.fb) → post t) :
    Completes (.drw x y n) s .framebufferChanged [VF] [.fb] post :=
  completes_of (exec_drw hb) (frame_setFb_setReg s _ VF _) (hp _ rfl (reg_setReg_self _ VF _))

theorem drw_fb (h : exec (.drw x y n) s = .next t) (hb : Backed s.cfg s.base n.toNat) :
    t.fb = drawRows (s.reg x) (s.reg y) 0 (s.spriteRows n) s.fb := by
  rw [exec_drw hb, finish_eq] at h
  rw [h]
  rfl

theorem drw_VF (h : exec (.drw x y n) s = .next t) (hb : Backed s.cfg s.base n.toNat) :
    t.reg VF = flagByte (drawCollides (s.reg x) (s.reg y) 0 (s.spriteRows n) s.fb) := by
  rw [exec_drw hb, finish_eq] at h
  rw [h]
  exact reg_setReg_self _ VF _

end

/-! ### The rows of a draw, the first as row 0 (44_display.md R192 to R195) -/

theorem flagByte_zero_or_one (b : Bool) : flagByte b = 0x00#8 ∨ flagByte b = 0x01#8 := by
  cases b
  · exact Or.inl rfl
  · exact Or.inr rfl

theorem rowCollides_iff {px py : Byte} {r : Nat} {row : Byte} {fb : FrameBuffer} :
    rowCollides px py r row fb = true ↔ fbByte fb (rowByte px py r) &&& rowMask px row ≠ 0x00#8 ∨
      fbByte fb (spillByte px py r) &&& spillMask px row ≠ 0x00#8 := by
  simp only [rowCollides, Bool.or_eq_true, decide_eq_true_eq]

section
variable {px py : Byte} {rows : List Byte} {fb : FrameBuffer} {r k : Nat}

theorem drawCollides_iff_rowCollides (hlen : rows.length ≤ 32) : drawCollides px py 0 rows fb = true ↔
    ∃ r, ∃ h : r < rows.length, rowCollides px py r rows[r] fb = true := by
  simpa only [Nat.zero_add] using drawCollides_iff (r := 0) hlen

/-- A byte that the rows change is one that some row spans. -/
theorem spanned_of_rowsEffect_ne_zero (h : rowsEffect px py 0 rows k ≠ 0x00#8) :
    ∃ r, r < rows.length ∧ (k = rowByte px py r ∨ k = spillByte px py r) := by
  by_contra hno
  push Not at hno
  exact h (rowsEffect_elsewhere (by simpa only [Nat.zero_add] using hno))

/-- On a byte that row r spans, the rows do what row r does. -/
theorem rowsEffect_eq_rowEffect (hlen : rows.length ≤ 32) (hr : r < rows.length)
    (hk : k = rowByte px py r ∨ k = spillByte px py r) : rowsEffect px py 0 rows k = rowEffect px py r rows[r] k := by
  simpa only [Nat.zero_add] using rowsEffect_at (r := 0) hlen hr (by simpa only [Nat.zero_add] using hk)

/-- A draw collides exactly when some byte has a lit pixel that the rows change. -/
theorem drawCollides_iff_rowsEffect (hlen : rows.length ≤ 32) : drawCollides px py 0 rows fb = true ↔
    ∃ k, k < 256 ∧ fbByte fb k &&& rowsEffect px py 0 rows k ≠ 0x00#8 := by
  have hrow {r : Nat} (hr : r < rows.length) : rowsEffect px py 0 rows (rowByte px py r) = rowMask px rows[r] :=
    (rowsEffect_eq_rowEffect hlen hr (Or.inl rfl)).trans (rowEffect_at_row ..)
  have hspill {r : Nat} (hr : r < rows.length) : rowsEffect px py 0 rows (spillByte px py r) = spillMask px rows[r] :=
    (rowsEffect_eq_rowEffect hlen hr (Or.inr rfl)).trans (rowEffect_at_spill ..)
  rw [drawCollides_iff_rowCollides hlen]
  constructor
  · rintro ⟨r, hr, h⟩
    rcases rowCollides_iff.mp h with h | h
    · exact ⟨_, rowByte_lt .., hrow hr ▸ h⟩
    · exact ⟨_, spillByte_lt .., hspill hr ▸ h⟩
  · rintro ⟨k, -, h⟩
    obtain ⟨r, hr, hk⟩ := spanned_of_rowsEffect_ne_zero fun h0 => h (by rw [h0, BitVec.and_zero])
    refine ⟨r, hr, rowCollides_iff.mpr ?_⟩
    rcases hk with rfl | rfl
    · exact Or.inl (hrow hr ▸ h)
    · exact Or.inr (hspill hr ▸ h)

end

/-- Settles O51: rows are 8 bytes apart, so each of the bytes a row spans is changed by that row alone, and a row collides
with the picture as it was before the draw. -/
theorem drawChangesSpannedBytes : Obligations.DrawChangesSpannedBytes := by
  intro x y n s hb b0 b1 m0 m1
  have hlen := spriteRows_length_le s n
  have hm0 {r : Nat} (h : r < (s.spriteRows n).length) : rowMask (s.reg x) (s.spriteRows n)[r] = m0 r := by
    rw [rowMask_eq, spriteRows_getElem]
    rfl
  have hm1 {r : Nat} (h : r < (s.spriteRows n).length) : spillMask (s.reg x) (s.spriteRows n)[r] = m1 r := by
    rw [spillMask_eq, spriteRows_getElem]
    rfl
  refine completes_drw hb fun t hfb hVF => ⟨fun r hr => ?_, fun b hlt hoff => ?_, hVF ▸ flagByte_zero_or_one _, ?_⟩
  · have hr := (lt_spriteRows_length s n).mpr hr
    rw [hfb, ← hm0 hr, ← hm1 hr]
    exact drawRows_at hlen hr
  · have hno : rowsEffect (s.reg x) (s.reg y) 0 (s.spriteRows n) b = 0x00#8 :=
      rowsEffect_elsewhere fun r hr => by rw [Nat.zero_add]; exact hoff r ((lt_spriteRows_length s n).mp hr)
    rw [hfb, fbByte_drawRows _ _ _ _ _ hlt, hno, BitVec.xor_zero]
  · rw [hVF, flagByte_eq_one, drawCollides_iff_rowCollides hlen]
    constructor
    · rintro ⟨r, hr, h⟩
      exact ⟨r, (lt_spriteRows_length s n).mp hr, hm0 hr ▸ hm1 hr ▸ rowCollides_iff.mp h⟩
    · rintro ⟨r, hr, h⟩
      have hr := (lt_spriteRows_length s n).mpr hr
      exact ⟨r, hr, rowCollides_iff.mpr (hm0 hr ▸ hm1 hr ▸ h)⟩

/-! ### Pixels (44_display.md R190), the 2048 of them in a row -/

/-- Pixel p: bit `7 - p mod 8` of byte `p div 8`; true is lit. -/
def fbPixel (fb : FrameBuffer) (p : Nat) : Bool := (fbByte fb (p / 8)).getLsbD (7 - p % 8)

/-- The pixel at column px, row py is pixel `py * 64 + px`. -/
theorem pixel_eq_fbPixel (s : State) (px : Fin 64) (py : Fin 32) : s.pixel px py = fbPixel s.fb (py.val * 64 + px.val) := by
  have hbyte : (py.val * 64 + px.val) / 8 = py.val * 8 + px.val / 8 := by omega
  have hbit : (py.val * 64 + px.val) % 8 = px.val % 8 := by omega
  rw [fbPixel, hbyte, hbit]
  rfl

theorem exists_column_row {p : Nat} (hp : p < 2048) : ∃ (px : Fin 64) (py : Fin 32), py.val * 64 + px.val = p :=
  ⟨⟨p % 64, by omega⟩, ⟨p / 64, by omega⟩, Nat.div_add_mod' p 64⟩

theorem fbByte_getLsbD (fb : FrameBuffer) (k : Nat) {i : Nat} (hi : i < 8) :
    (fbByte fb k).getLsbD i = fbPixel fb (k * 8 + (7 - i)) := by
  have hbyte : (k * 8 + (7 - i)) / 8 = k := by omega
  have hbit : 7 - (k * 8 + (7 - i)) % 8 = i := by omega
  rw [fbPixel, hbyte, hbit]

theorem pixel_congr {s t : State} (h : t.fb = s.fb) (px : Fin 64) (py : Fin 32) : t.pixel px py = s.pixel px py := by
  rw [State.pixel, h, State.pixel]

/-- Framebuffers with the same pixels are the same. -/
theorem fb_eq_of_pixel_eq {s t : State} (h : ∀ px py, t.pixel px py = s.pixel px py) : t.fb = s.fb := by
  refine fb_ext fun k hk => BitVec.eq_of_getLsbD_eq fun i hi => ?_
  obtain ⟨px, py, hp⟩ := exists_column_row (p := k * 8 + (7 - i)) (by omega)
  rw [fbByte_getLsbD _ _ hi, fbByte_getLsbD _ _ hi, ← hp, ← pixel_eq_fbPixel, ← pixel_eq_fbPixel]
  exact h px py

theorem exists_getLsbD_of_ne_zero {w : Nat} {b : BitVec w} (h : b ≠ 0#w) : ∃ i, i < w ∧ b.getLsbD i = true :=
  have hbit := BitVec.getLsbD_true_ctz_of_ne_zero h
  ⟨_, BitVec.lt_of_getLsbD hbit, hbit⟩

/-! ### The pixels under the rows of a draw -/

theorem spritePixel_lt (px py : Byte) (r j : Nat) : spritePixel px py r j < 2048 := Nat.mod_lt _ (by decide)

theorem spritePixel_div (px py : Byte) (r : Nat) {j : Nat} (hj : j < 8) :
    spritePixel px py r j / 8 = rowByte px py r ∨ spritePixel px py r j / 8 = spillByte px py r := by
  unfold spritePixel spillByte rowByte
  omega

section
variable {px py : Byte} {rows : List Byte} {fb : FrameBuffer}

/-- A pixel after the rows are drawn: flipped where the rows have an effect on its bit. -/
theorem fbPixel_drawRows {p : Nat} (hp : p < 2048) : fbPixel (drawRows px py 0 rows fb) p =
    (fbPixel fb p ^^ (rowsEffect px py 0 rows (p / 8)).getLsbD (7 - p % 8)) := by
  rw [fbPixel, fbByte_drawRows _ _ _ _ _ (by omega), BitVec.getLsbD_xor]
  rfl

/-- The pixel at column j of row r is flipped by bit `7 - j` of that row. -/
theorem fbPixel_drawRows_at (hlen : rows.length ≤ 32) {r j : Nat} (hr : r < rows.length) (hj : j < 8) :
    fbPixel (drawRows px py 0 rows fb) (spritePixel px py r j) =
      (fbPixel fb (spritePixel px py r j) ^^ rows[r].getLsbD (7 - j)) := by
  rw [fbPixel_drawRows (spritePixel_lt ..), rowsEffect_eq_rowEffect hlen hr (spritePixel_div px py r hj),
    rowEffect_at_pixel px py r rows[r] hj]

/-- A pixel in no column of any row stays. -/
theorem fbPixel_drawRows_off (hlen : rows.length ≤ 32) {p : Nat} (hp : p < 2048)
    (h : ∀ r j, r < rows.length → j < 8 → p ≠ spritePixel px py r j) :
    fbPixel (drawRows px py 0 rows fb) p = fbPixel fb p := by
  have hno : (rowsEffect px py 0 rows (p / 8)).getLsbD (7 - p % 8) = false := by
    by_cases h0 : rowsEffect px py 0 rows (p / 8) = 0x00#8
    · rw [h0, BitVec.getLsbD_zero]
    · obtain ⟨r, hr, hk⟩ := spanned_of_rowsEffect_ne_zero h0
      rw [rowsEffect_eq_rowEffect hlen hr hk]
      exact rowEffect_off_pixel px py r rows[r] hp fun j hj => h r j hr hj
  rw [fbPixel_drawRows hp, hno, Bool.xor_false]

/-- A draw collides exactly when it turns a lit pixel off (44_display.md R195). -/
theorem drawCollides_iff_fbPixel (hlen : rows.length ≤ 32) : drawCollides px py 0 rows fb = true ↔
    ∃ p, p < 2048 ∧ fbPixel fb p = true ∧ fbPixel (drawRows px py 0 rows fb) p = false := by
  rw [drawCollides_iff_rowsEffect hlen]
  constructor
  · rintro ⟨k, hk, h⟩
    obtain ⟨i, hi, hbit⟩ := exists_getLsbD_of_ne_zero h
    rw [BitVec.getLsbD_and, Bool.and_eq_true] at hbit
    obtain ⟨hlit, hflip⟩ := hbit
    refine ⟨k * 8 + (7 - i), by omega, fbByte_getLsbD fb k hi ▸ hlit, ?_⟩
    rw [← fbByte_getLsbD _ k hi, fbByte_drawRows _ _ _ _ _ hk, BitVec.getLsbD_xor, hlit, hflip, Bool.xor_self]
  · rintro ⟨p, hp, hlit, hoff⟩
    rw [fbPixel_drawRows hp, hlit, Bool.true_xor, Bool.not_eq_false'] at hoff
    have hbit : (fbByte fb (p / 8) &&& rowsEffect px py 0 rows (p / 8)).getLsbD (7 - p % 8) = true := by
      rw [BitVec.getLsbD_and, hoff, Bool.and_true]
      exact hlit
    refine ⟨p / 8, by omega, fun h0 => ?_⟩
    rw [h0, BitVec.getLsbD_zero] at hbit
    cases hbit

end

/-! ### The pixels and VF after DRW -/

section
variable {x y : RegIdx} {n : Nibble} {s t : State}

theorem drw_pixel_at (h : exec (.drw x y n) s = .next t) (hb : Backed s.cfg s.base n.toNat) {r j : Nat} {px : Fin 64}
    {py : Fin 32} (hr : r < n.toNat) (hj : j < 8) (hp : py.val * 64 + px.val = spritePixel (s.reg x) (s.reg y) r j) :
    t.pixel px py = (s.pixel px py ^^ (s.byteAt (s.base + r)).getLsbD (7 - j)) := by
  have hr := (lt_spriteRows_length s n).mpr hr
  rw [pixel_eq_fbPixel, pixel_eq_fbPixel, hp, drw_fb h hb, fbPixel_drawRows_at (spriteRows_length_le s n) hr hj,
    spriteRows_getElem]

theorem drw_pixel_off (h : exec (.drw x y n) s = .next t) (hb : Backed s.cfg s.base n.toNat) {px : Fin 64} {py : Fin 32}
    (hoff : ∀ r j, r < n.toNat → j < 8 → py.val * 64 + px.val ≠ spritePixel (s.reg x) (s.reg y) r j) :
    t.pixel px py = s.pixel px py := by
  rw [pixel_eq_fbPixel, pixel_eq_fbPixel, drw_fb h hb]
  exact fbPixel_drawRows_off (spriteRows_length_le s n) (by omega) fun r j hr => hoff r j ((lt_spriteRows_length s n).mp hr)

theorem drw_VF_iff (h : exec (.drw x y n) s = .next t) (hb : Backed s.cfg s.base n.toNat) :
    t.reg VF = 0x01#8 ↔ ∃ px py, s.pixel px py = true ∧ t.pixel px py = false := by
  rw [drw_VF h hb, flagByte_eq_one, drawCollides_iff_fbPixel (spriteRows_length_le s n), ← drw_fb h hb]
  simp only [pixel_eq_fbPixel]
  constructor
  · rintro ⟨p, hp, hturned⟩
    obtain ⟨px, py, rfl⟩ := exists_column_row hp
    exact ⟨px, py, hturned⟩
  · rintro ⟨px, py, hturned⟩
    exact ⟨_, by omega, hturned⟩

end

/-- Settles O52: a pixel of the framebuffer drawn is the old one xor the bit of the sprite that lands on it, if one does. -/
theorem drawFlipsPixels : Obligations.DrawFlipsPixels := fun _ _ _ _ _ hb h =>
  ⟨fun _ _ _ _ hr hj hp => drw_pixel_at h hb hr hj hp, fun _ _ hoff => drw_pixel_off h hb hoff, drw_VF_iff h hb⟩

/-! ### Sprites without a 1 bit, and draws on a clear framebuffer (44_display.md R197) -/

section
variable {x y : RegIdx} {n : Nibble} {s t : State}

/-- A sprite without a 1 bit leaves every pixel. -/
theorem drw_pixel_of_zero_sprite (h : exec (.drw x y n) s = .next t) (hb : Backed s.cfg s.base n.toNat)
    (hzero : ∀ r, r < n.toNat → s.byteAt (s.base + r) = 0x00#8) (px : Fin 64) (py : Fin 32) :
    t.pixel px py = s.pixel px py := by
  by_cases hon : ∃ r j, r < n.toNat ∧ j < 8 ∧ py.val * 64 + px.val = spritePixel (s.reg x) (s.reg y) r j
  · obtain ⟨r, j, hr, hj, hp⟩ := hon
    rw [drw_pixel_at h hb hr hj hp, hzero r hr, BitVec.getLsbD_zero, Bool.xor_false]
  · exact drw_pixel_off h hb fun r j hr hj hp => hon ⟨r, j, hr, hj, hp⟩

theorem pixel_of_clear (hclear : ∀ b, fbByte s.fb b = 0x00#8) (px : Fin 64) (py : Fin 32) : s.pixel px py = false := by
  rw [State.pixel, hclear, BitVec.getLsbD_zero]

/-- On a clear framebuffer a draw lights a pixel exactly when the sprite has a 1 bit. -/
theorem drw_lights_iff_of_clear (h : exec (.drw x y n) s = .next t) (hb : Backed s.cfg s.base n.toNat)
    (hclear : ∀ b, fbByte s.fb b = 0x00#8) : (∃ px py, s.pixel px py = false ∧ t.pixel px py = true) ↔
      ∃ r, r < n.toNat ∧ s.byteAt (s.base + r) ≠ 0x00#8 := by
  constructor
  · rintro ⟨px, py, hoff, hlit⟩
    by_contra hno
    push Not at hno
    rw [drw_pixel_of_zero_sprite h hb hno, hoff] at hlit
    cases hlit
  · rintro ⟨r, hr, hrow⟩
    obtain ⟨i, hi, hbit⟩ := exists_getLsbD_of_ne_zero hrow
    have hcolumn : 7 - (7 - i) = i := by omega
    obtain ⟨px, py, hp⟩ := exists_column_row (spritePixel_lt (s.reg x) (s.reg y) r (7 - i))
    have hoff := pixel_of_clear hclear px py
    refine ⟨px, py, hoff, ?_⟩
    rw [drw_pixel_at h hb hr (by omega) hp, hoff, hcolumn, hbit, Bool.false_xor]

end

/-! ### The second draw of a sprite (44_display.md R197) -/

/-- Settles O53: the second draw undoes the first, so what it turns off is what the first one lit. -/
theorem drawTwiceRestores : Obligations.DrawTwiceRestores := by
  intro x y n s t hb h
  refine ⟨fun u hfb hm hi hc hx hy => ?_, fun hclear hzero => ?_⟩
  · have hmem : u.mem = s.mem := hm.trans (exec_mem h (by simp [writtenParts]))
    have hcfg : u.cfg = s.cfg := hc.trans (exec_frame h).cfg_eq
    have hbase : u.base = s.base := congrArg BitVec.toNat (hi.trans (exec_i h (by simp [writtenParts])))
    have hb' : Backed u.cfg u.base n.toNat := by rwa [hcfg, hbase]
    have hrows : u.spriteRows n = s.spriteRows n := by
      rw [State.spriteRows, hbase]
      exact bytesAt_eq_of_same s u hmem hcfg s.base n.toNat
    obtain ⟨w, h'⟩ : ∃ w, exec (.drw x y n) u = .next w := ⟨_, exec_drw hb'⟩
    have hw : w.fb = s.fb := by rw [drw_fb h' hb', hfb, drw_fb h hb, hx, hy, hrows, drawRows_twice]
    have hVF : w.reg VF = 0x01#8 ↔ ∃ px py, s.pixel px py = false ∧ t.pixel px py = true :=
      (drw_VF_iff h' hb').trans (exists₂_congr fun px py => by rw [pixel_congr hfb, pixel_congr hw, and_comm])
    exact ⟨w, h', hw, hVF, fun hclear => hVF.trans (drw_lights_iff_of_clear h hb hclear)⟩
  · rw [fb_eq_of_pixel_eq (drw_pixel_of_zero_sprite h hb hzero)]
    exact hclear

end Sys2Proof.Machine

/-! The statements of 45_keys_timers.md: the draw among the pressed keys, the wait for a key, the key tests, and the moves to
and from the timers. -/

namespace Sys2Proof.Machine

/-! ### LD Vx, K (45_keys_timers.md R214) -/

/-- The index of a key fits in a byte, so none of it is cut off. -/
theorem keyIdx_toNat (k : KeyIdx) : (BitVec.ofNat 8 k.val).toNat = k.val := by
  rw [BitVec.toNat_ofNat]
  omega

/-- `s` with another draw among the pressed keys. -/
def State.withKeyChoice (s : State) (n : Nat) : State := { s with input := { s.input with keyChoice := n } }

/-- The draw n takes the nth pressed key, when there is one. -/
theorem chosenKey_withKeyChoice {s : State} {n : Nat} (h : n < s.pressedKeys.length) :
    (s.withKeyChoice n).chosenKey = some s.pressedKeys[n] := by
  have hdraw : (s.withKeyChoice n).chosenKey = s.pressedKeys[n % s.pressedKeys.length]? := rfl
  rw [hdraw, Nat.mod_eq_of_lt h, List.getElem?_eq_getElem h]

/-- Settles O58: the draw is the place of the key among the pressed ones. -/
theorem everyPressedKeyMayBeTaken : Obligations.EveryPressedKeyMayBeTaken := by
  intro x k s hk
  obtain ⟨n, hn, rfl⟩ := List.getElem_of_mem (mem_pressedKeys.mpr hk)
  refine ⟨n, _, exec_ldVxK_key (chosenKey_withKeyChoice hn), ?_, rfl⟩
  rw [State.setStatus_reg, reg_setReg_self, keyIdx_toNat]

/-- Settles O57: the draw is one of the pressed keys, if there are any. -/
theorem waitForKeyTakesPressedKey : Obligations.WaitForKeyTakesPressedKey := by
  refine fun x s => ⟨fun ⟨k, hk⟩ => ?_, fun hnone => completes_of_setPc (exec_ldVxK_stall (chosenKey_none hnone)) rfl⟩
  obtain ⟨j, hj, hpressed⟩ := chosenKey_some hk
  exact completes_of_setReg (exec_ldVxK_key hj) fun t hx => ⟨j, hpressed, hx ▸ keyIdx_toNat j⟩

/-! ### SKP and SKNP (45_keys_timers.md R211, R212) -/

/-- Settles O55: V[x] names a key, so neither test faults, and each sets pc by the state of that key. -/
theorem keyTestsSkip : Obligations.KeyTestsSkip := fun _ _ h =>
  ⟨completes_of_setPc (exec_skp h) rfl, completes_of_setPc (exec_sknp h) rfl⟩

/-! ### The moves to and from the timers (45_keys_timers.md R213, R215, R216) -/

theorem frame_setDt (s : State) (b : TimerByte) : Frame [] [.dt] s (s.setDt b) := by simp [Frame]

theorem frame_setSt (s : State) (b : TimerByte) : Frame [] [.st] s (s.setSt b) := by simp [Frame]

theorem soundOn_iff (s : State) : s.soundOn = true ↔ s.st ≠ 0x00#8 := decide_eq_true_iff

/-- Settles O56: each move writes its destination alone, and the sound is on by the ST written. -/
theorem timerRegistersMove : Obligations.TimerRegistersMove := fun _ s =>
  ⟨completes_of_setReg rfl fun _ hx => hx, completes_of rfl (frame_setDt s _) rfl,
    completes_of rfl (frame_setSt s _) ⟨rfl, soundOn_iff _⟩⟩

end Sys2Proof.Machine

/-! The statements of 60_exceptions.md: what a word that decodes to nothing ends in, and the invariant that every step keeps. -/

namespace Sys2Proof.Machine

/-! ### Decode failure (60_exceptions.md R231) -/

/-- Settles O11: the decoder's fault is taken in the state after the timer phase, and the next step sees its record. -/
theorem invalidWordStopsTheRun : Obligations.InvalidWordStopsTheRun := fun _ _ hr hb hd =>
  ⟨_, step_invalid hr hb hd, rfl, rfl, rfl, rfl, rfl, rfl, rfl, rfl, rfl, step_faulted rfl⟩

/-! ### The invariant of a step (10_state.md R28; 40_execution_cycle.md R108; 60_exceptions.md R230) -/

section
variable {s t : State}

/-- A fault keeps the invariant when its record is legal: it leaves memory and SP, and sets pc, run and status as one. -/
theorem inv_enterFault {kind : FaultKind} {address : Word} {opcode : Option Word}
    (hmem : Memory.wf s.cfg s.mem = true) (hsp : s.sp.val ≤ s.cfg.stackDepth.val)
    (hlegal : FaultRecord.legal s.cfg { kind := kind, address := address, opcode := opcode } = true) :
    (enterFault kind address opcode s).Inv := by
  refine ⟨hmem, ?_, hsp⟩
  simp [State.runAgrees, hlegal]

/-- Run and status agree in a running state whose last tick reported no fault. -/
theorem runAgrees_of_running {r : Status} (hrun : t.run = .running) (hstatus : t.status = some r)
    (hr : ∀ record, r ≠ .fault record) : t.runAgrees = true := by
  cases r with
  | ok | framebufferChanged => simp [State.runAgrees, hrun, hstatus]
  | fault record => exact absurd rfl (hr record)

/-- The execute phase of a running engine ends in the invariant, given canonical memory and the bound on SP: it completes and
keeps both, or it takes a fault with a legal record. The status before it does not matter. -/
theorem exec_inv {i : Instr} (hrun : s.run = .running) (hmem : Memory.wf s.cfg s.mem = true)
    (hsp : s.sp.val ≤ s.cfg.stackDepth.val) (h : exec i s = .next t) : t.Inv := by
  obtain ⟨u, hu, hurun, hstatus, hcfg, hwf, hbound⟩ | ⟨kind, hf, hlegal⟩ := exec_cases i s
  · rw [hu] at h
    cases h
    refine ⟨hcfg ▸ hwf hmem, runAgrees_of_running (hurun.trans hrun) hstatus fun record => ?_, hcfg ▸ hbound hsp⟩
    split <;> exact Status.noConfusion
  · rw [hf, raiseFault_eq] at h
    rw [h]
    exact inv_enterFault hmem hsp (hlegal hsp)

/-- A step from a state that meets the invariant ends in one: a fault of the fetch or of the decoder has a legal record, and
an instruction starts from the memory, the SP and the run state of `s`. -/
theorem step_inv (hinv : s.Inv) (h : step s = .next t) : t.Inv := by
  obtain ⟨hmem, -, hsp⟩ := hinv
  obtain ⟨hrun, ⟨a, ⟨-, hout, -⟩, rfl⟩ | ⟨-, -, rfl⟩ | ⟨i, -, he⟩⟩ := step_cases h
  · exact inv_enterFault hmem hsp (decide_eq_true hout)
  · exact inv_enterFault hmem hsp rfl
  · exact exec_inv (s := preIncrement (beginTick s)) hrun hmem hsp he

/-- No step changes the parameters (10_state.md R20). -/
theorem step_cfg (h : step s = .next t) : t.cfg = s.cfg := by
  obtain ⟨-, ⟨a, -, rfl⟩ | ⟨-, -, rfl⟩ | ⟨i, -, he⟩⟩ := step_cases h
  · rfl
  · rfl
  · exact (exec_frame he).cfg_eq

end

/-- Settles O16, by the phase in which the step ended. -/
theorem stepKeepsInvariant : Obligations.StepKeepsInvariant := fun _ _ hinv h => ⟨step_inv hinv h, step_cfg h⟩

end Sys2Proof.Machine

/-! The statements of 70_reset_and_hazards.md: construction from a ROM. -/

namespace Sys2Proof.Machine

/-! ### Construction from a ROM (70_reset_and_hazards.md R261, R263 to R265) -/

section
variable {c : Config} {rom p : List Byte}

/-- The program of a ROM is what follows its marker, or the whole ROM when it has none (R263). -/
theorem programBytes_eq
    (h : rom = 0x43#8 :: 0x38#8 :: 0x50#8 :: p ∨ (rom = p ∧ ∀ q, rom ≠ 0x43#8 :: 0x38#8 :: 0x50#8 :: q)) :
    programBytes rom = p := by
  obtain rfl | ⟨rfl, hplain⟩ := h
  · exact programBytes_marked p
  · exact programBytes_plain hplain

theorem constructFromRom_of_le (h : c.programStart.toNat + (programBytes rom).length ≤ c.memSize) :
    constructFromRom c rom = .ok ((State.construct c).writeBytes c.programStart.toNat (programBytes rom)) :=
  if_neg (Nat.not_lt_of_le h)

theorem constructFromRom_of_lt (h : c.memSize < c.programStart.toNat + (programBytes rom).length) :
    constructFromRom c rom = .error (.loadError rom.length) := if_pos h

end

/-- Settles O8: a program that fits is stored over backed bytes of the canonical memory of reset. -/
theorem romIsPlacedOrRefused : Obligations.RomIsPlacedOrRefused := by
  intro c rom p hrom
  obtain rfl := programBytes_eq hrom
  refine ⟨fun hfit => ?_, constructFromRom_of_lt⟩
  have hload := constructFromRom_of_le hfit
  obtain ⟨hbacked, -⟩ := constructFromRom_ok hload
  obtain ⟨hmem, -, -⟩ := construct_inv c
  exact ⟨_, hload, fun _ hj => byteAt_writeBytes_in hmem hbacked hj, fun _ ha => byteAt_writeBytes_out hmem hbacked ha, rfl,
    writeBytes_wf hmem hbacked⟩

end Sys2Proof.Machine
